-- ==== Sys2Proof/Word.lean ====
section
/-! DEFINITION. The bit vectors of the CHIP-8 core and their plainest arithmetic (spec/00_scope.md rule R7: every value is
unsigned, bit 0 is the least significant). -/

namespace Sys2Proof

/-- A byte of memory, a general register, the delay timer (R20, R32, R60). -/
abbrev Byte := BitVec 8

/-- An instruction word, the index register, the program counter, a stack slot (R23, R24, R27, R90). -/
abbrev Word := BitVec 16

/-- The 12-bit immediate `nnn` (R91). -/
abbrev Addr := BitVec 12

/-- A nibble of an instruction word: the fields `op`, `x`, `y`, `n` (R91). As `x` or `y` it names a register. -/
abbrev Nibble := BitVec 4

/-- `zext_16` of the spec's pseudocode (R10). -/
abbrev zext16 {w : Nat} (v : BitVec w) : Word := v.setWidth 16

end Sys2Proof
end

