-- ==== Sys2Proof/Config.lean ====
section
/-! DEFINITION. The implementation parameters of spec/00_scope.md rule R6 that operations use, and the free values.
The parameters whose value is a width or a count fixed in a type (NREG, STACK_DEPTH, NKEYS, FB_W, FB_H, ADDR_MOD) stand in the
types of `Sys2Proof.Machine.State`; FONT is `Sys2Proof.Machine.fontTable`; SHIFT_SOURCE admits the one value `Vx` and
TICK_HZ is not modelled (R266). -/

namespace Sys2Proof

/-- MEM_SIZE: bytes of memory. -/
abbrev Config.memSize : Nat := 4096

/-- LOAD_ADDR: where LOAD copies the program, and the reset value of `pc`. -/
abbrev Config.loadAddr : Nat := 512

/-- FLAG_REG: the index of the flag register `VF`. -/
abbrev Config.flagReg : Nibble := 15

/-- INSTR_BYTES: the width of every instruction. -/
abbrev Config.instrBytes : Nat := 2

/-- SKIP_BYTES: how much further than INSTR_BYTES a taken skip moves `pc`. -/
abbrev Config.skipBytes : Nat := 2

/-- The `n`-th draw that nobody outside the model has fixed: the random byte of `Cxkk` (R195, decision D14: any byte, with
no law). It has no body, so nothing can be proved of its value. DESIGN CHOICE, safe: notes/assumptions/3.md. -/
opaque Config.freeDraw : Nat → Byte

end Sys2Proof
end

