-- ==== Sys2Proof/Syntax.lean ====
section
/-! DEFINITION. The instructions of spec/30_encoding.md rule R95, one constructor per row of spec/opcode_table.json, with
the fields of the row as arguments. -/

namespace Sys2Proof

/-- The 32 instructions and the catch-all. `x` and `y` are register numbers, `kk`, `nnn` and `n` immediates (R91). -/
inductive Instr where
  /-- `00E0` CLS: clear the framebuffer (R180). -/
  | cls
  /-- `00EE` RET: return from subroutine (R123). -/
  | ret
  /-- `1nnn` JP nnn (R124). -/
  | jp (nnn : Addr)
  /-- `2nnn` CALL nnn (R125). -/
  | call (nnn : Addr)
  /-- `3xkk` SE Vx, kk (R131). -/
  | seByte (x : Nibble) (kk : Byte)
  /-- `4xkk` SNE Vx, kk (R132). -/
  | sneByte (x : Nibble) (kk : Byte)
  /-- `5xy0` SE Vx, Vy (R133). -/
  | seReg (x y : Nibble)
  /-- `6xkk` LD Vx, kk (R140). -/
  | ldByte (x : Nibble) (kk : Byte)
  /-- `7xkk` ADD Vx, kk (R141). -/
  | addByte (x : Nibble) (kk : Byte)
  /-- `8xy0` LD Vx, Vy (R151). -/
  | ldReg (x y : Nibble)
  /-- `8xy1` OR Vx, Vy (R152). -/
  | orReg (x y : Nibble)
  /-- `8xy2` AND Vx, Vy (R153). -/
  | andReg (x y : Nibble)
  /-- `8xy3` XOR Vx, Vy (R154). -/
  | xorReg (x y : Nibble)
  /-- `8xy4` ADD Vx, Vy (R155). -/
  | addReg (x y : Nibble)
  /-- `8xy5` SUB Vx, Vy (R156). -/
  | subReg (x y : Nibble)
  /-- `8xy6` SHR Vx; `y` is encoded and ignored (R157, R96). -/
  | shr (x y : Nibble)
  /-- `8xy7` SUBN Vx, Vy (R158). -/
  | subnReg (x y : Nibble)
  /-- `8xyE` SHL Vx; `y` is encoded and ignored (R159, R96). -/
  | shl (x y : Nibble)
  /-- `9xy0` SNE Vx, Vy (R134). -/
  | sneReg (x y : Nibble)
  /-- `Annn` LD I, nnn (R171). -/
  | ldI (nnn : Addr)
  /-- `Bnnn` JP V0, nnn (R126). -/
  | jpV0 (nnn : Addr)
  /-- `Cxkk` RND Vx, kk (R195). -/
  | rnd (x : Nibble) (kk : Byte)
  /-- `Dxyn` DRW Vx, Vy, n (R181). -/
  | drw (x y n : Nibble)
  /-- `Ex9E` SKP Vx (R193). -/
  | skp (x : Nibble)
  /-- `ExA1` SKNP Vx (R194). -/
  | sknp (x : Nibble)
  /-- `Fx07` LD Vx, DT (R191). -/
  | ldVxDT (x : Nibble)
  /-- `Fx15` LD DT, Vx (R192). -/
  | ldDTVx (x : Nibble)
  /-- `Fx1E` ADD I, Vx (R172). -/
  | addI (x : Nibble)
  /-- `Fx29` LD F, Vx (R173). -/
  | ldF (x : Nibble)
  /-- `Fx33` LD B, Vx (R174). -/
  | ldB (x : Nibble)
  /-- `Fx55` LD [I], Vx (R175). -/
  | storeRegs (x : Nibble)
  /-- `Fx65` LD Vx, [I] (R176). -/
  | loadRegs (x : Nibble)
  /-- UNKNOWN w: any word that matches no other row (R200). -/
  | unknown (w : Word)
  deriving DecidableEq, Repr

end Sys2Proof
end

