-- ==== Sys2Proof/WellFormed.lean ====
section
/-! DEFINITION. The opcode map of spec/30_encoding.md rule R95 as mask and match pairs, and which instructions are
well-formed. Every operand of a listed instruction has the width of its field, so each of its values is legal; only the
catch-all carries a condition: its word must match no row. -/

namespace Sys2Proof

/-- One row of the opcode map (R95): a word belongs to the row when `w &&& mask = value` (R94). -/
structure OpcodeRow where
  mask : Word
  value : Word
  deriving DecidableEq, Repr

/-- `w & mask = match` (R94). -/
def OpcodeRow.matches (r : OpcodeRow) (w : Word) : Bool := w &&& r.mask == r.value

/-- The 32 rows of R95, in the table's order. -/
def opcodeMap : List OpcodeRow :=
  [⟨0xFFFF, 0x00E0⟩, ⟨0xFFFF, 0x00EE⟩, ⟨0xF000, 0x1000⟩, ⟨0xF000, 0x2000⟩, ⟨0xF000, 0x3000⟩, ⟨0xF000, 0x4000⟩,
   ⟨0xF00F, 0x5000⟩, ⟨0xF000, 0x6000⟩, ⟨0xF000, 0x7000⟩, ⟨0xF00F, 0x8000⟩, ⟨0xF00F, 0x8001⟩, ⟨0xF00F, 0x8002⟩,
   ⟨0xF00F, 0x8003⟩, ⟨0xF00F, 0x8004⟩, ⟨0xF00F, 0x8005⟩, ⟨0xF00F, 0x8006⟩, ⟨0xF00F, 0x8007⟩, ⟨0xF00F, 0x800E⟩,
   ⟨0xF00F, 0x9000⟩, ⟨0xF000, 0xA000⟩, ⟨0xF000, 0xB000⟩, ⟨0xF000, 0xC000⟩, ⟨0xF000, 0xD000⟩, ⟨0xF0FF, 0xE09E⟩,
   ⟨0xF0FF, 0xE0A1⟩, ⟨0xF0FF, 0xF007⟩, ⟨0xF0FF, 0xF015⟩, ⟨0xF0FF, 0xF01E⟩, ⟨0xF0FF, 0xF029⟩, ⟨0xF0FF, 0xF033⟩,
   ⟨0xF0FF, 0xF055⟩, ⟨0xF0FF, 0xF065⟩]

/-- The word matches a row of R95, so it is one of the 32 instructions. -/
def isListed (w : Word) : Bool := opcodeMap.any (fun r => r.matches w)

/-- The row an instruction is encoded by; the catch-all has none. -/
def Instr.row : Instr → Option OpcodeRow
  | .cls => some ⟨0xFFFF, 0x00E0⟩
  | .ret => some ⟨0xFFFF, 0x00EE⟩
  | .jp _ => some ⟨0xF000, 0x1000⟩
  | .call _ => some ⟨0xF000, 0x2000⟩
  | .seByte _ _ => some ⟨0xF000, 0x3000⟩
  | .sneByte _ _ => some ⟨0xF000, 0x4000⟩
  | .seReg _ _ => some ⟨0xF00F, 0x5000⟩
  | .ldByte _ _ => some ⟨0xF000, 0x6000⟩
  | .addByte _ _ => some ⟨0xF000, 0x7000⟩
  | .ldReg _ _ => some ⟨0xF00F, 0x8000⟩
  | .orReg _ _ => some ⟨0xF00F, 0x8001⟩
  | .andReg _ _ => some ⟨0xF00F, 0x8002⟩
  | .xorReg _ _ => some ⟨0xF00F, 0x8003⟩
  | .addReg _ _ => some ⟨0xF00F, 0x8004⟩
  | .subReg _ _ => some ⟨0xF00F, 0x8005⟩
  | .shr _ _ => some ⟨0xF00F, 0x8006⟩
  | .subnReg _ _ => some ⟨0xF00F, 0x8007⟩
  | .shl _ _ => some ⟨0xF00F, 0x800E⟩
  | .sneReg _ _ => some ⟨0xF00F, 0x9000⟩
  | .ldI _ => some ⟨0xF000, 0xA000⟩
  | .jpV0 _ => some ⟨0xF000, 0xB000⟩
  | .rnd _ _ => some ⟨0xF000, 0xC000⟩
  | .drw _ _ _ => some ⟨0xF000, 0xD000⟩
  | .skp _ => some ⟨0xF0FF, 0xE09E⟩
  | .sknp _ => some ⟨0xF0FF, 0xE0A1⟩
  | .ldVxDT _ => some ⟨0xF0FF, 0xF007⟩
  | .ldDTVx _ => some ⟨0xF0FF, 0xF015⟩
  | .addI _ => some ⟨0xF0FF, 0xF01E⟩
  | .ldF _ => some ⟨0xF0FF, 0xF029⟩
  | .ldB _ => some ⟨0xF0FF, 0xF033⟩
  | .storeRegs _ => some ⟨0xF0FF, 0xF055⟩
  | .loadRegs _ => some ⟨0xF0FF, 0xF065⟩
  | .unknown _ => none

/-- A listed instruction is always well-formed; UNKNOWN w only where w matches no row (R98, R200). -/
def Instr.wellFormed : Instr → Bool
  | .unknown w => !isListed w
  | _ => true

end Sys2Proof
end

