-- ==== Sys2Proof/Decode.lean ====
section
/-! DEFINITION. Decoding and encoding (spec/30_encoding.md rules R90 to R99), and the byte order of an instruction word
(spec/20_memory.md rule R69). -/

namespace Sys2Proof

/-- Field `op = w[15:12]` (R91). -/
def fieldOp (w : Word) : Nibble := w.extractLsb' 12 4

/-- Field `x = w[11:8]` (R91). -/
def fieldX (w : Word) : Nibble := w.extractLsb' 8 4

/-- Field `y = w[7:4]` (R91). -/
def fieldY (w : Word) : Nibble := w.extractLsb' 4 4

/-- Field `n = w[3:0]` (R91). -/
def fieldN (w : Word) : Nibble := w.extractLsb' 0 4

/-- Field `kk = w[7:0]` (R91). -/
def fieldKK (w : Word) : Byte := w.extractLsb' 0 8

/-- Field `nnn = w[11:0]` (R91). -/
def fieldNNN (w : Word) : Addr := w.extractLsb' 0 12

/-- Family 0: matched on all 16 bits (R94, R99). -/
def decodeFamily0 (w : Word) : Instr :=
  if w = 0x00E0#16 then .cls
  else if w = 0x00EE#16 then .ret
  else .unknown w

/-- Families 5 and 9 are defined for `n = 0` only (R94, R99). -/
def decodeIfN0 (w : Word) (i : Instr) : Instr :=
  if fieldN w = 0#4 then i else .unknown w

/-- Family 8: the low nibble selects the operation (R150, R99). -/
def decodeFamily8 (w : Word) : Instr :=
  let x := fieldX w
  let y := fieldY w
  let n := fieldN w
  if n = 0#4 then .ldReg x y
  else if n = 1#4 then .orReg x y
  else if n = 2#4 then .andReg x y
  else if n = 3#4 then .xorReg x y
  else if n = 4#4 then .addReg x y
  else if n = 5#4 then .subReg x y
  else if n = 6#4 then .shr x y
  else if n = 7#4 then .subnReg x y
  else if n = 14#4 then .shl x y
  else .unknown w

/-- Family E: matched on the whole low byte (R94, R99). -/
def decodeFamilyE (w : Word) : Instr :=
  let x := fieldX w
  let kk := fieldKK w
  if kk = 0x9E#8 then .skp x
  else if kk = 0xA1#8 then .sknp x
  else .unknown w

/-- Family F: matched on the whole low byte (R94, R99). -/
def decodeFamilyF (w : Word) : Instr :=
  let x := fieldX w
  let kk := fieldKK w
  if kk = 0x07#8 then .ldVxDT x
  else if kk = 0x15#8 then .ldDTVx x
  else if kk = 0x1E#8 then .addI x
  else if kk = 0x29#8 then .ldF x
  else if kk = 0x33#8 then .ldB x
  else if kk = 0x55#8 then .storeRegs x
  else if kk = 0x65#8 then .loadRegs x
  else .unknown w

/-- The instruction of a word: total, since a word that matches no row is the unknown instruction (R94, R98, R120). -/
def decode (w : Word) : Instr :=
  let op := fieldOp w
  let x := fieldX w
  let y := fieldY w
  let kk := fieldKK w
  let nnn := fieldNNN w
  if op = 0#4 then decodeFamily0 w
  else if op = 1#4 then .jp nnn
  else if op = 2#4 then .call nnn
  else if op = 3#4 then .seByte x kk
  else if op = 4#4 then .sneByte x kk
  else if op = 5#4 then decodeIfN0 w (.seReg x y)
  else if op = 6#4 then .ldByte x kk
  else if op = 7#4 then .addByte x kk
  else if op = 8#4 then decodeFamily8 w
  else if op = 9#4 then decodeIfN0 w (.sneReg x y)
  else if op = 10#4 then .ldI nnn
  else if op = 11#4 then .jpV0 nnn
  else if op = 12#4 then .rnd x kk
  else if op = 13#4 then .drw x y (fieldN w)
  else if op = 14#4 then decodeFamilyE w
  else decodeFamilyF w

/-- The word with the byte `b0` at the lower address and `b1` at the higher one: big-endian (R69). -/
def wordOfBytes (b0 b1 : Byte) : Word := b0 ++ b1

/-- The byte of a word that lies at the lower address (R69). -/
def highByte (w : Word) : Byte := w.extractLsb' 8 8

/-- The byte of a word that lies at the higher address (R69). -/
def lowByte (w : Word) : Byte := w.extractLsb' 0 8

/-- Why bytes hold no instruction. -/
inductive DecodeError where
  /-- Fewer than two bytes: every instruction is exactly 2 bytes (R90). -/
  | truncated
  deriving DecidableEq, Repr

/-- The first instruction of a list of bytes and the bytes after it, or why there is none. -/
def decodeBytes : List Byte → Except DecodeError (Instr × List Byte)
  | b0 :: b1 :: rest => .ok (decode (wordOfBytes b0 b1), rest)
  | _ => .error .truncated

/-- Format `NNN` (R92). -/
def encodeNNN (op : Nibble) (nnn : Addr) : Word := op ++ nnn

/-- Formats `XKK` and `XSS` (R92). -/
def encodeXKK (op x : Nibble) (kk : Byte) : Word := (op ++ x) ++ kk

/-- Formats `XYS` and `XYN` (R92). -/
def encodeXYN (op x y n : Nibble) : Word := (op ++ x) ++ (y ++ n)

/-- The word of an instruction (R92, R95). -/
def encode : Instr → Word
  | .cls => 0x00E0
  | .ret => 0x00EE
  | .jp nnn => encodeNNN 1 nnn
  | .call nnn => encodeNNN 2 nnn
  | .seByte x kk => encodeXKK 3 x kk
  | .sneByte x kk => encodeXKK 4 x kk
  | .seReg x y => encodeXYN 5 x y 0
  | .ldByte x kk => encodeXKK 6 x kk
  | .addByte x kk => encodeXKK 7 x kk
  | .ldReg x y => encodeXYN 8 x y 0
  | .orReg x y => encodeXYN 8 x y 1
  | .andReg x y => encodeXYN 8 x y 2
  | .xorReg x y => encodeXYN 8 x y 3
  | .addReg x y => encodeXYN 8 x y 4
  | .subReg x y => encodeXYN 8 x y 5
  | .shr x y => encodeXYN 8 x y 6
  | .subnReg x y => encodeXYN 8 x y 7
  | .shl x y => encodeXYN 8 x y 14
  | .sneReg x y => encodeXYN 9 x y 0
  | .ldI nnn => encodeNNN 10 nnn
  | .jpV0 nnn => encodeNNN 11 nnn
  | .rnd x kk => encodeXKK 12 x kk
  | .drw x y n => encodeXYN 13 x y n
  | .skp x => encodeXKK 14 x 0x9E
  | .sknp x => encodeXKK 14 x 0xA1
  | .ldVxDT x => encodeXKK 15 x 0x07
  | .ldDTVx x => encodeXKK 15 x 0x15
  | .addI x => encodeXKK 15 x 0x1E
  | .ldF x => encodeXKK 15 x 0x29
  | .ldB x => encodeXKK 15 x 0x33
  | .storeRegs x => encodeXKK 15 x 0x55
  | .loadRegs x => encodeXKK 15 x 0x65
  | .unknown w => w

/-- The two bytes of an instruction, the one at the lower address first (R69). -/
def encodeBytes (i : Instr) : List Byte := [highByte (encode i), lowByte (encode i)]

/-- The word of an instruction whose bits are numbered as spec/opcode_table.json numbers them: the table gives every row
its 16 bits; bits above `nbits` are 0. -/
def tableWord (nbits w : Nat) : Word := BitVec.ofNat 16 (w % 2 ^ nbits)

/-- What the decoder reads from the bytes of `tableWord nbits w`, laid out as the hardware stores them; none for more than
the 16 bits an instruction has. -/
def decodeTableWord (nbits w : Nat) : Option Instr :=
  if nbits ≤ 16 then
    match decodeBytes [highByte (tableWord nbits w), lowByte (tableWord nbits w)] with
    | .ok (i, _) => some i
    | .error _ => none
  else none

end Sys2Proof
end

