-- ==== Sys2Proof/Machine/Font.lean ====
section
/-! DEFINITION. The font table FONT of spec/20_memory.md rule R66, the reset contents of Mem[0..79]. PRESUMED, unsafe: the
source gives no bytes; the spec takes the conventional ones (D5, G1). notes/assumptions/6.md. -/

namespace Sys2Proof.Machine

/-- Glyphs 0 to 7. -/
def fontLow : List Byte :=
  [0xF0, 0x90, 0x90, 0x90, 0xF0,
   0x20, 0x60, 0x20, 0x20, 0x70,
   0xF0, 0x10, 0xF0, 0x80, 0xF0,
   0xF0, 0x10, 0xF0, 0x10, 0xF0,
   0x90, 0x90, 0xF0, 0x10, 0x10,
   0xF0, 0x80, 0xF0, 0x10, 0xF0,
   0xF0, 0x80, 0xF0, 0x90, 0xF0,
   0xF0, 0x10, 0x20, 0x40, 0x40]

/-- Glyphs 8 to F. -/
def fontHigh : List Byte :=
  [0xF0, 0x90, 0xF0, 0x90, 0xF0,
   0xF0, 0x90, 0xF0, 0x10, 0xF0,
   0xF0, 0x90, 0xF0, 0x90, 0x90,
   0xE0, 0x90, 0xE0, 0x90, 0xE0,
   0xF0, 0x80, 0x80, 0x80, 0xF0,
   0xE0, 0x90, 0x90, 0x90, 0xE0,
   0xF0, 0x80, 0xF0, 0x80, 0xF0,
   0xF0, 0x80, 0xF0, 0x80, 0x80]

/-- FONT: glyph `d` is the five bytes from `5 * d`, top row first (R66). -/
def fontTable : List Byte := fontLow ++ fontHigh

end Sys2Proof.Machine
end

