-- ==== Sys2Proof/Machine/State.lean ====
section
/-! DEFINITION. The state of the core (spec/10_state.md), the reasons a run can halt or a step can stop, the host's events,
and the state after RESET (R46). -/

namespace Sys2Proof.Machine

/-- The reasons of `Halted(reason)` (spec/60_exceptions.md rule R210). A halt is a state of the core (`State.run`), not a
fault of the model. -/
inductive HaltReason where
  /-- A fetch or a data access at an address of 4096 or more (R62, R63, R120). -/
  | outOfBounds
  /-- Listed by the source; raised by nothing, since register numbers are 4-bit fields (R22). -/
  | invalidRegister
  /-- `2nnn` with 16 calls outstanding (R30). -/
  | stackOverflow
  /-- `00EE` with no call outstanding (R31). -/
  | stackUnderflow
  /-- A LOAD of more than 3584 bytes (R41). -/
  | programTooLarge
  /-- `Ex9E` or `ExA1` with `V[x]` of 16 or more (R193, R194). -/
  | invalidKey
  deriving DecidableEq, Repr

/-- The engine state `run` (R34). -/
inductive RunState where
  | ready
  | halted (reason : HaltReason)
  deriving DecidableEq, Repr

/-- The report `UnknownInstruction(pc, w)`: the address the word was fetched from, and the word (R202). -/
structure Report where
  pc : Word
  word : Word
  deriving DecidableEq, Repr

/-- The five events that drive the core (R38). -/
inductive Event where
  /-- RESET (R250). -/
  | reset
  /-- LOAD(bytes) (R41). -/
  | load (bytes : List Byte)
  /-- STEP(rnd) (R40); `none` where nobody has fixed the draw, which is then a free value (R195). -/
  | step (rnd : Option Byte)
  /-- TICK (R226). -/
  | tick
  /-- KEY(k, pressed) (R229). -/
  | key (k : Nibble) (pressed : Bool)
  deriving DecidableEq, Repr

/-- The whole machine. The first eleven fields are the spec's state (R20 to R34); the last five are the model's own: the
host's inputs still to come and the inputs and outputs of the event under way (R36, R38). -/
structure State where
  /-- `V[0]` to `V[15]` (R20). -/
  v : Vector Byte 16
  /-- The index register `I` (R23). -/
  i : Word
  /-- The program counter (R24). -/
  pc : Word
  /-- How many slots of the call stack are occupied, 0 to 16 (R27). -/
  sp : Fin 17
  /-- `Stack[0]` to `Stack[15]` (R27). -/
  stack : Vector Word 16
  /-- `Mem` (R28): the bytes that differ from the reset contents `Memory.initial`, by rising address. -/
  mem : List Host.Cell
  /-- `FB` (R29): 32 rows of 64 cells; bit `c` of row `r` is cell `c + r*64`. -/
  fb : Vector (BitVec 64) 32
  /-- The delay timer `DT` (R32). -/
  dt : Byte
  /-- `Key[0]` to `Key[15]` (R33), `true` is down. -/
  key : Vector Bool 16
  /-- The engine state (R34). -/
  run : RunState
  /-- The host's events still to be carried out, oldest first (R38, R39; notes/assumptions/2.md). -/
  agenda : List Event
  /-- The draw given with the STEP under way (R40; notes/assumptions/3.md). -/
  draw : Option Byte
  /-- How many draws `Cxkk` has used: the index of its next free draw (notes/assumptions/3.md). -/
  drawCount : Nat
  /-- The report put out by the latest event (R202; notes/assumptions/4.md). -/
  report : Option Report
  /-- A LOAD is still legal: a RESET happened and no LOAD or STEP after it (R41, R231; notes/assumptions/5.md). -/
  loadOpen : Bool
  deriving DecidableEq, Repr

/-- The state after RESET and before any LOAD (R46, R250, R251). Memory lists nothing: it holds its reset contents. -/
def State.reset : State where
  v := Vector.replicate 16 0
  i := 0
  pc := 0x200
  sp := 0
  stack := Vector.replicate 16 0
  mem := []
  fb := Vector.replicate 32 0
  dt := 0
  key := Vector.replicate 16 false
  run := .ready
  agenda := []
  draw := none
  drawCount := 0
  report := none
  loadOpen := true

/-- Faults of the model: there are none. Every fatal condition of the spec is a next state with `run = Halted(reason)`
(R11, R212; notes/assumptions/1.md), and no operation of this machine stops it otherwise, so no step raises a fault (safe). -/
inductive Fault : Type
  deriving DecidableEq, Repr

/-- Refusals of the model. -/
inductive Refusal where
  /-- Raised by an arm of `exec` whose instruction has no meaning yet; no arm raises it. Safe: the machine stops where the
  hardware goes on. -/
  | notModelled (mnemonic : String)
  /-- Raised by the LOAD event when a LOAD is no longer legal: the spec gives it no move (R41, D19, U16). Safe: the
  machine stops where the hardware may go on. notes/assumptions/5.md. -/
  | loadOutOfTurn
  deriving DecidableEq, Repr

end Sys2Proof.Machine
end

