-- ==== Sys2Proof/Machine/Ops.lean ====
section
/-! DEFINITION. The named operations over the state: one setter per piece of state, memory, the call stack, taking a halt,
and the fetch. A fatal condition is an `Except.error`; `finish` turns it into the halt, so every halt is precise (R11). -/

namespace Sys2Proof.Machine

/-! ### Setters -/

/-- `V[x] <- b` (R20). -/
def State.setV (s : State) (x : Nibble) (b : Byte) : State := { s with v := s.v.set x.toNat b x.isLt }

/-- The value of `V[x]` (R20). -/
def State.getV (s : State) (x : Nibble) : Byte := s.v[x.toNat]'x.isLt

/-- `I <- w` (R23). -/
def State.setI (s : State) (w : Word) : State := { s with i := w }

/-- `pc <- w` (R24). -/
def State.setPc (s : State) (w : Word) : State := { s with pc := w }

/-- `Stack <- st; sp <- n` (R27). -/
def State.setStack (s : State) (n : Fin 17) (st : Vector Word 16) : State := { s with sp := n, stack := st }

/-- `Mem <- m` (R28). -/
def State.setMem (s : State) (m : List Host.Cell) : State := { s with mem := m }

/-- `FB <- f` (R29). -/
def State.setFb (s : State) (f : Vector (BitVec 64) 32) : State := { s with fb := f }

/-- `DT <- b` (R32). -/
def State.setDt (s : State) (b : Byte) : State := { s with dt := b }

/-- `Key[k] <- pressed` (R229). -/
def State.setKey (s : State) (k : Nibble) (pressed : Bool) : State :=
  { s with key := s.key.set k.toNat pressed k.isLt }

/-- The value of `Key[k]` (R33). -/
def State.getKey (s : State) (k : Nibble) : Bool := s.key[k.toNat]'k.isLt

/-- `run <- r` (R34). -/
def State.setRun (s : State) (r : RunState) : State := { s with run := r }

/-- Put out a report, or none (R202). -/
def State.setReport (s : State) (r : Option Report) : State := { s with report := r }

/-- A draw has been used: the next free one has the next index (notes/assumptions/3.md). -/
def State.spendDraw (s : State) : State := { s with drawCount := s.drawCount + 1 }

/-- Cell `c` of a framebuffer, the one of column `c mod 64` and row `c div 64` (R29); there is none from 2048 on. -/
def fbCell (fb : Vector (BitVec 64) 32) (c : Nat) : Bool :=
  if h : c / 64 < 32 then fb[c / 64].getLsbD (c % 64) else false

/-- `FB[c]` (R29, R45). -/
def State.cell (s : State) (c : Nat) : Bool := fbCell s.fb c

/-! ### Memory -/

/-- The byte an address holds after RESET, and so what an unlisted address reads as: FONT, then zero (R46, R65). -/
def Memory.initial (a : Nat) : Byte := fontTable.getD a 0

/-- The byte a list of cells gives for an address, if it lists it. -/
def Memory.find : List Host.Cell → Nat → Option Byte
  | [], _ => none
  | (b, v) :: rest, a => if b = a then some v else Memory.find rest a

/-- `Mem[a]`. -/
def Memory.get (m : List Host.Cell) (a : Nat) : Byte := (Memory.find m a).getD (Memory.initial a)

/-- List the address, in its place, with the byte. -/
def Memory.insert : List Host.Cell → Nat → Byte → List Host.Cell
  | [], a, v => [(a, v)]
  | (b, u) :: rest, a, v =>
    if b < a then (b, u) :: Memory.insert rest a v
    else if b = a then (a, v) :: rest
    else (a, v) :: (b, u) :: rest

/-- List the address no more. -/
def Memory.erase : List Host.Cell → Nat → List Host.Cell
  | [], _ => []
  | (b, u) :: rest, a => if b = a then Memory.erase rest a else (b, u) :: Memory.erase rest a

/-- `Mem[a] <- v`, keeping the canonical form: a byte equal to the reset contents is not listed. -/
def Memory.put (m : List Host.Cell) (a : Nat) (v : Byte) : List Host.Cell :=
  if v = Memory.initial a then Memory.erase m a else Memory.insert m a v

/-- The canonical form from an address on: addresses strictly rising from `lo` and inside memory, no byte equal to the
reset contents. -/
def Memory.wfFrom : Nat → List Host.Cell → Bool
  | _, [] => true
  | lo, (a, v) :: rest =>
    decide (lo ≤ a) && decide (a < Config.memSize) && decide (v ≠ Memory.initial a) && Memory.wfFrom (a + 1) rest

/-- The canonical form of a memory: equal memories are then equal lists. -/
def Memory.wf (m : List Host.Cell) : Bool := Memory.wfFrom 0 m

/-- One byte of the state's memory. -/
def State.byteAt (s : State) (a : Nat) : Byte := Memory.get s.mem a

/-- `MemRead(a, 1)` (R62). -/
def memRead (a : Nat) (s : State) : Except HaltReason Byte :=
  if a < Config.memSize then .ok (s.byteAt a) else .error .outOfBounds

/-- `MemWrite(a, 1, v)` (R63). -/
def memWrite (a : Nat) (v : Byte) (s : State) : Except HaltReason State :=
  if a < Config.memSize then .ok (s.setMem (Memory.put s.mem a v)) else .error .outOfBounds

/-- The `n` bytes from address `a` on, read in ascending order (R67). -/
def readRange (a : Nat) : Nat → State → Except HaltReason (List Byte)
  | 0, _ => .ok []
  | n + 1, s =>
    match memRead a s with
    | .error r => .error r
    | .ok b =>
      match readRange (a + 1) n s with
      | .error r => .error r
      | .ok bs => .ok (b :: bs)

/-- Write the bytes from address `a` on, in ascending order (R67). -/
def writeRange (a : Nat) : List Byte → State → Except HaltReason State
  | [], s => .ok s
  | b :: bs, s =>
    match memWrite a b s with
    | .error r => .error r
    | .ok t => writeRange (a + 1) bs t

/-! ### The call stack -/

/-- `Push(v)` (R30). -/
def push (w : Word) (s : State) : Except HaltReason State :=
  if h : s.sp.val < 16 then
    .ok (s.setStack ⟨s.sp.val + 1, by omega⟩ (s.stack.set s.sp.val w h))
  else .error .stackOverflow

/-- `Pop()`: the popped value and the state after it; the slot keeps its value (R31). -/
def pop (s : State) : Except HaltReason (Word × State) :=
  if h : 0 < s.sp.val then
    .ok (s.stack[s.sp.val - 1]'(by omega), s.setStack ⟨s.sp.val - 1, by omega⟩ s.stack)
  else .error .stackUnderflow

/-! ### Halts and the program counter -/

/-- Taking a halt, the one exception entry of the machine: `run <- Halted(reason)` and nothing else (R11, R211, R212).
The return from it is the RESET event alone (R214, `resetEvent`). -/
def takeHalt (reason : HaltReason) (s : State) : State := s.setRun (.halted reason)

/-- The end of an instruction's execute phase: the state it leads to, or, where it raised a halt, the state `s` before the
instruction with the halt taken (R11, R213). -/
def finish (s : State) : Except HaltReason State → Host.Outcome State Fault Refusal
  | .ok t => .next t
  | .error reason => .next (takeHalt reason s)

/-- The address after the instruction at `pc`, modulo 65536 (R121). -/
def State.nextPc (s : State) : Word := s.pc + BitVec.ofNat 16 Config.instrBytes

/-- The sequential advance (R121). -/
def advance (s : State) : State := s.setPc s.nextPc

/-- The advance of a conditional skip: a taken one moves 2 bytes further (R121, R130). -/
def skipIf (c : Bool) (s : State) : State :=
  if c then s.setPc (s.nextPc + BitVec.ofNat 16 Config.skipBytes) else advance s

/-! ### Fetch -/

/-- Fetch: two bytes at `pc` and `pc + 1`, a sum of natural numbers, composed big-endian (R69, R120). -/
def fetch (s : State) : Except HaltReason Word :=
  match memRead s.pc.toNat s with
  | .error r => .error r
  | .ok b0 =>
    match memRead (s.pc.toNat + 1) s with
    | .error r => .error r
    | .ok b1 => .ok (wordOfBytes b0 b1)

/-- Bytes put into memory from outside, each where it lies inside memory; no instruction does this. -/
def placeBytes (a : Nat) : List Byte → State → State
  | [], s => s
  | b :: bs, s =>
    placeBytes (a + 1) bs (if a < Config.memSize then s.setMem (Memory.put s.mem a b) else s)

/-- The address at which `placeFetchWord` puts a word: `pc` where a fetch from it succeeds, else LOAD_ADDR. -/
def fetchableAddr (s : State) : Word :=
  if s.pc.toNat + 1 < Config.memSize then s.pc else BitVec.ofNat 16 Config.loadAddr

/-- The state with the word where the next STEP fetches it, and with that STEP the next event: what a LOAD of the
word's two bytes stands for (notes/assumptions/5.md). -/
def placeFetchWord (s : State) (w : Word) : State :=
  let t := placeBytes (fetchableAddr s).toNat [highByte w, lowByte w] s
  { t with pc := fetchableAddr s, run := .ready, agenda := [] }

end Sys2Proof.Machine
end

