-- ==== Sys2Proof/Machine/Operands.lean ====
section
/-! DEFINITION. The operand forms (spec/30_encoding.md rule R93, spec/44_index_memory.md rule R170): registers `V[x]` and
`V[y]` are `State.getV`, immediates are taken as they stand, an address is `I` plus a constant. -/

namespace Sys2Proof.Machine

/-- The effective address `I + r`, a natural number that is never reduced (R64, R170). -/
def effAddr (s : State) (r : Nat) : Nat := s.i.toNat + r

/-- `nnn` as an address: `zext_16(nnn)` (R93). -/
def immAddr (nnn : Addr) : Word := zext16 nnn

/-- The key that `V[x]` names; a number of 16 or more is not masked but halts (R193, decision D12). -/
def keyOperand (x : Nibble) (s : State) : Except HaltReason Nibble :=
  if (s.getV x).toNat < 16 then .ok ((s.getV x).setWidth 4) else .error .invalidKey

/-- How many registers the range `0..=x` has (R93). -/
def rangeLength (x : Nibble) : Nat := x.toNat + 1

/-- The values of `V[0]` to `V[x]`, in ascending order: what `Fx55` stores (R175). -/
def registerRange (x : Nibble) (s : State) : List Byte := s.v.toList.take (rangeLength x)

/-- Write the bytes to `V[j]`, `V[j + 1]` and on (R176); a number past 15 names no register. -/
def setRegisters (j : Nat) : List Byte → State → State
  | [], s => s
  | b :: bs, s => setRegisters (j + 1) bs (if j < 16 then s.setV (BitVec.ofNat 4 j) b else s)

/-- The draw of this STEP: the one given with it, else a free value (R40, R195). -/
def drawOperand (s : State) : Byte := s.draw.getD (Config.freeDraw s.drawCount)

/-- The three decimal digits of a byte, hundreds first (R174). -/
def bcdDigits (b : Byte) : List Byte := [b / 100, (b / 10) % 10, b % 10]

end Sys2Proof.Machine
end

