-- ==== Sys2Proof/Machine/Flags.lean ====
section
/-! DEFINITION. The flag outcomes of spec/43_alu.md rules R155 to R159 and how they are written (R21, R150). -/

namespace Sys2Proof.Machine

/-- The flag is written as the byte 0x00 or 0x01 (R150). -/
def flagByte (f : Bool) : Byte := if f then 1 else 0

/-- Carry out of the 8-bit addition: the exact sum is above 255 (R155). -/
def carryOut (a b : Byte) : Bool := decide (255 < a.toNat + b.toNat)

/-- The subtract flag: STRICTLY greater, so equal operands give 0 (R156, R158). -/
def greater (a b : Byte) : Bool := decide (b.toNat < a.toNat)

/-- The bit a right shift by one shifts out (R157). -/
def lowBit (a : Byte) : Bool := a.getLsbD 0

/-- The bit a left shift by one shifts out (R159). -/
def highBit (a : Byte) : Bool := a.getLsbD 7

/-- `V[15] <- f` (R21). -/
def State.setFlag (s : State) (f : Bool) : State := s.setV Config.flagReg (flagByte f)

/-- The end of a flag-defining operation: the result to `V[x]` and THEN the flag to `V[15]` (R150). -/
def writeResultAndFlag (x : Nibble) (r : Byte) (f : Bool) (s : State) : State := (s.setV x r).setFlag f

end Sys2Proof.Machine
end

