-- ==== Sys2Proof/Machine/Alu.lean ====
section
/-! DEFINITION. The ALU family (spec/43_alu.md). Operands are read before anything is written (R150). -/

namespace Sys2Proof.Machine

/-- `8xy0` LD Vx, Vy (R151). -/
def execLdReg (x y : Nibble) (s : State) : Host.Outcome State Fault Refusal :=
  .next (advance (s.setV x (s.getV y)))

/-- `8xy1` OR (R152): `VF` is not written. -/
def execOrReg (x y : Nibble) (s : State) : Host.Outcome State Fault Refusal :=
  .next (advance (s.setV x (s.getV x ||| s.getV y)))

/-- `8xy2` AND (R153): `VF` is not written. -/
def execAndReg (x y : Nibble) (s : State) : Host.Outcome State Fault Refusal :=
  .next (advance (s.setV x (s.getV x &&& s.getV y)))

/-- `8xy3` XOR (R154): `VF` is not written. -/
def execXorReg (x y : Nibble) (s : State) : Host.Outcome State Fault Refusal :=
  .next (advance (s.setV x (s.getV x ^^^ s.getV y)))

/-- `8xy4` ADD (R155): `VF` is the carry out. -/
def execAddReg (x y : Nibble) (s : State) : Host.Outcome State Fault Refusal :=
  .next (advance (writeResultAndFlag x (s.getV x + s.getV y) (carryOut (s.getV x) (s.getV y)) s))

/-- `8xy5` SUB (R156): `VF` is `V[x] > V[y]`, strictly. -/
def execSubReg (x y : Nibble) (s : State) : Host.Outcome State Fault Refusal :=
  .next (advance (writeResultAndFlag x (s.getV x - s.getV y) (greater (s.getV x) (s.getV y)) s))

/-- `8xy6` SHR (R157): shifts `V[x]` in place; `y` is ignored (R96). -/
def execShr (x : Nibble) (s : State) : Host.Outcome State Fault Refusal :=
  .next (advance (writeResultAndFlag x (s.getV x >>> 1) (lowBit (s.getV x)) s))

/-- `8xy7` SUBN (R158): `VF` is `V[y] > V[x]`, strictly. -/
def execSubnReg (x y : Nibble) (s : State) : Host.Outcome State Fault Refusal :=
  .next (advance (writeResultAndFlag x (s.getV y - s.getV x) (greater (s.getV y) (s.getV x)) s))

/-- `8xyE` SHL (R159): shifts `V[x]` in place; `y` is ignored (R96). -/
def execShl (x : Nibble) (s : State) : Host.Outcome State Fault Refusal :=
  .next (advance (writeResultAndFlag x (s.getV x <<< 1) (highBit (s.getV x)) s))

end Sys2Proof.Machine
end

