-- ==== Sys2Proof/Machine/Display.lean ====
section
/-! DEFINITION. Framebuffer instructions (spec/45_display.md): the clear and the XOR-blit with collision detection. -/

namespace Sys2Proof.Machine

/-- A framebuffer being drawn on, and whether a lit cell met a 1 bit so far. -/
structure Canvas where
  fb : Vector (BitVec 64) 32
  hit : Bool
  deriving DecidableEq, Repr

/-- One row of a framebuffer being drawn on, and whether a lit cell met a 1 bit so far. -/
structure RowCanvas where
  cells : BitVec 64
  hit : Bool
  deriving DecidableEq, Repr

/-- One bit of a sprite on the cell of column `col`: the collision test sees the cell before it changes (R181). -/
def blitBit (col : Nat) (bit : Bool) (p : RowCanvas) : RowCanvas :=
  { cells := if bit then p.cells ^^^ (1#64 <<< col) else p.cells
    hit := p.hit || (p.cells.getLsbD col && bit) }

/-- The bits `b`, `b + 1` and on of one sprite row, `k` of them, bit 7 leftmost, each column modulo 64 (R181). -/
def blitBits (x0 : Nat) (sprite : Byte) (b : Nat) : Nat → RowCanvas → RowCanvas
  | 0, p => p
  | k + 1, p => blitBits x0 sprite (b + 1) k (blitBit ((x0 + b) % 64) (sprite.getLsbD (7 - b)) p)

/-- One row of the sprite, all its 8 bits, on row `y mod 32` (R181). -/
def blitRow (x0 y : Nat) (sprite : Byte) (p : Canvas) : Canvas :=
  let q := blitBits x0 sprite 0 8 ⟨p.fb[y % 32]'(Nat.mod_lt _ (by decide)), p.hit⟩
  ⟨p.fb.set (y % 32) q.cells (Nat.mod_lt _ (by decide)), q.hit⟩

/-- The sprite rows `r`, `r + 1` and on, each row modulo 32 (R181). -/
def blitRows (x0 y0 : Nat) (r : Nat) : List Byte → Canvas → Canvas
  | [], p => p
  | sprite :: rest, p => blitRows x0 y0 (r + 1) rest (blitRow x0 (y0 + r) sprite p)

/-- The whole sprite, with no collision so far (R181 steps 3 and 4). -/
def blit (x0 y0 : Nat) (rows : List Byte) (fb : Vector (BitVec 64) 32) : Canvas := blitRows x0 y0 0 rows ⟨fb, false⟩

/-- `00E0` CLS (R180). -/
def execCls (s : State) : Host.Outcome State Fault Refusal :=
  .next (advance (s.setFb (Vector.replicate 32 0)))

/-- `Dxyn` DRW (R181): the coordinates are read before `VF` is touched, and all rows before the first cell changes. -/
def execDrw (x y n : Nibble) (s : State) : Host.Outcome State Fault Refusal :=
  finish s (match readRange (effAddr s 0) n.toNat s with
    | .error r => .error r
    | .ok rows =>
      let p := blit (s.getV x).toNat (s.getV y).toNat rows s.fb
      .ok (advance ((s.setFb p.fb).setFlag p.hit)))

end Sys2Proof.Machine
end

