-- ==== Sys2Proof/Machine/Flow.lean ====
section
/-! DEFINITION. Control transfer (spec/40_flow.md): `00EE`, `1nnn`, `2nnn`, `Bnnn`. -/

namespace Sys2Proof.Machine

/-- `00EE` RET (R123): `pc` is the popped value, with no further increment. -/
def execRet (s : State) : Host.Outcome State Fault Refusal :=
  finish s (match pop s with
    | .error r => .error r
    | .ok (w, t) => .ok (t.setPc w))

/-- `1nnn` JP (R124). -/
def execJp (nnn : Addr) (s : State) : Host.Outcome State Fault Refusal :=
  .next (s.setPc (immAddr nnn))

/-- `2nnn` CALL (R125): pushes `pc + 2`, the return address (decision D8). -/
def execCall (nnn : Addr) (s : State) : Host.Outcome State Fault Refusal :=
  finish s (match push s.nextPc s with
    | .error r => .error r
    | .ok t => .ok (t.setPc (immAddr nnn)))

/-- `Bnnn` JP V0 (R126): the sum is not reduced modulo 4096. -/
def execJpV0 (nnn : Addr) (s : State) : Host.Outcome State Fault Refusal :=
  .next (s.setPc (immAddr nnn + zext16 (s.getV 0)))

end Sys2Proof.Machine
end

