-- ==== Sys2Proof/Machine/Immediate.lean ====
section
/-! DEFINITION. Immediate load and add (spec/42_immediate.md). -/

namespace Sys2Proof.Machine

/-- `6xkk` LD Vx, kk (R140). -/
def execLdByte (x : Nibble) (kk : Byte) (s : State) : Host.Outcome State Fault Refusal :=
  .next (advance (s.setV x kk))

/-- `7xkk` ADD Vx, kk (R141): modulo 256, no flag. -/
def execAddByte (x : Nibble) (kk : Byte) (s : State) : Host.Outcome State Fault Refusal :=
  .next (advance (s.setV x (s.getV x + kk)))

end Sys2Proof.Machine
end

