-- ==== Sys2Proof/Machine/IndexMemory.lean ====
section
/-! DEFINITION. Index register and memory instructions (spec/44_index_memory.md). None changes `I` as a side effect of an
access (R170). -/

namespace Sys2Proof.Machine

/-- `Annn` LD I, nnn (R171). -/
def execLdI (nnn : Addr) (s : State) : Host.Outcome State Fault Refusal :=
  .next (advance (s.setI (immAddr nnn)))

/-- `Fx1E` ADD I, Vx (R172): modulo 65536, `VF` is not written. -/
def execAddI (x : Nibble) (s : State) : Host.Outcome State Fault Refusal :=
  .next (advance (s.setI (s.i + zext16 (s.getV x))))

/-- `Fx29` LD F, Vx (R173): `5 * V[x]` on the whole byte, FONT_BASE being 0. -/
def execLdF (x : Nibble) (s : State) : Host.Outcome State Fault Refusal :=
  .next (advance (s.setI (5 * zext16 (s.getV x))))

/-- `Fx33` LD B, Vx (R174): three decimal digits from `I` on. -/
def execLdB (x : Nibble) (s : State) : Host.Outcome State Fault Refusal :=
  finish s (match writeRange (effAddr s 0) (bcdDigits (s.getV x)) s with
    | .error r => .error r
    | .ok t => .ok (advance t))

/-- `Fx55` LD [I], Vx (R175): `V[0]` to `V[x]`, inclusive, from `I` on. -/
def execStoreRegs (x : Nibble) (s : State) : Host.Outcome State Fault Refusal :=
  finish s (match writeRange (effAddr s 0) (registerRange x s) s with
    | .error r => .error r
    | .ok t => .ok (advance t))

/-- `Fx65` LD Vx, [I] (R176): `V[0]` to `V[x]`, inclusive, from `I` on. -/
def execLoadRegs (x : Nibble) (s : State) : Host.Outcome State Fault Refusal :=
  finish s (match readRange (effAddr s 0) (rangeLength x) s with
    | .error r => .error r
    | .ok bs => .ok (advance (setRegisters 0 bs s)))

end Sys2Proof.Machine
end

