-- ==== Sys2Proof/Machine/Skip.lean ====
section
/-! DEFINITION. Conditional skips on registers (spec/41_skip.md). -/

namespace Sys2Proof.Machine

/-- `3xkk` SE Vx, kk (R131). -/
def execSeByte (x : Nibble) (kk : Byte) (s : State) : Host.Outcome State Fault Refusal :=
  .next (skipIf (s.getV x == kk) s)

/-- `4xkk` SNE Vx, kk (R132). -/
def execSneByte (x : Nibble) (kk : Byte) (s : State) : Host.Outcome State Fault Refusal :=
  .next (skipIf (s.getV x != kk) s)

/-- `5xy0` SE Vx, Vy (R133). -/
def execSeReg (x y : Nibble) (s : State) : Host.Outcome State Fault Refusal :=
  .next (skipIf (s.getV x == s.getV y) s)

/-- `9xy0` SNE Vx, Vy (R134). -/
def execSneReg (x y : Nibble) (s : State) : Host.Outcome State Fault Refusal :=
  .next (skipIf (s.getV x != s.getV y) s)

end Sys2Proof.Machine
end

