-- ==== Sys2Proof/Machine/TimerKeyRandom.lean ====
section
/-! DEFINITION. Timer, keypad and random instructions (spec/46_timer_key_random.md). -/

namespace Sys2Proof.Machine

/-- `Cxkk` RND Vx, kk (R195): the draw of this STEP, masked. -/
def execRnd (x : Nibble) (kk : Byte) (s : State) : Host.Outcome State Fault Refusal :=
  .next (advance ((s.setV x (drawOperand s &&& kk)).spendDraw))

/-- `Ex9E` SKP Vx (R193): skip if the key is down. -/
def execSkp (x : Nibble) (s : State) : Host.Outcome State Fault Refusal :=
  finish s (match keyOperand x s with
    | .error r => .error r
    | .ok k => .ok (skipIf (s.getKey k) s))

/-- `ExA1` SKNP Vx (R194): skip if the key is up. -/
def execSknp (x : Nibble) (s : State) : Host.Outcome State Fault Refusal :=
  finish s (match keyOperand x s with
    | .error r => .error r
    | .ok k => .ok (skipIf (!s.getKey k) s))

/-- `Fx07` LD Vx, DT (R191). -/
def execLdVxDT (x : Nibble) (s : State) : Host.Outcome State Fault Refusal :=
  .next (advance (s.setV x s.dt))

/-- `Fx15` LD DT, Vx (R192). -/
def execLdDTVx (x : Nibble) (s : State) : Host.Outcome State Fault Refusal :=
  .next (advance (s.setDt (s.getV x)))

end Sys2Proof.Machine
end

