-- ==== Sys2Proof/Machine/Unknown.lean ====
section
/-! DEFINITION. The unknown instruction (spec/47_unknown.md): a reported no-op. -/

namespace Sys2Proof.Machine

/-- UNKNOWN w (R200): report the address and the word, and advance. -/
def execUnknown (w : Word) (s : State) : Host.Outcome State Fault Refusal :=
  .next (advance (s.setReport (some ⟨s.pc, w⟩)))

end Sys2Proof.Machine
end

