-- ==== Sys2Proof/Machine/Events.lean ====
section
/-! DEFINITION. The five events (spec/10_state.md rule R38): RESET, LOAD, STEP, TICK, KEY, each atomic (R39). -/

namespace Sys2Proof.Machine

/-- RESET (R250): every piece of state at its reset value, whatever it was. What the host still has to issue and the index
of the next free draw are no state of the core and stay. -/
def resetEvent (s : State) : State :=
  { State.reset with agenda := s.agenda, drawCount := s.drawCount }

/-- LOAD(bytes) (R41): the bytes from LOAD_ADDR on, or, where they do not fit, the halt and no byte copied. A LOAD
that is not the first event of its kind after RESET, or comes after a STEP, has no move. -/
def loadEvent (bytes : List Byte) (s : State) : Host.Outcome State Fault Refusal :=
  if s.loadOpen then
    let t := { s with report := none, loadOpen := false }
    if Config.loadAddr + bytes.length ≤ Config.memSize then
      finish t (writeRange Config.loadAddr bytes t)
    else .next (takeHalt .programTooLarge t)
  else .refused .loadOutOfTurn

/-- The inputs and outputs of a STEP, before anything happens: the draw given with it, no report yet, and no LOAD from
here on (R40, R41). -/
def beginStep (rnd : Option Byte) (s : State) : State :=
  { s with draw := rnd, report := none, loadOpen := false }

/-- Fetch, decode and execute one instruction (R120). -/
def runInstruction (s : State) : Host.Outcome State Fault Refusal :=
  match fetch s with
  | .error r => .next (takeHalt r s)
  | .ok w => exec (decode w) s

/-- STEP(rnd) (R40, R120): nothing where the core is halted, else one instruction. -/
def stepEvent (rnd : Option Byte) (s : State) : Host.Outcome State Fault Refusal :=
  match s.run with
  | .halted _ => .next (beginStep rnd s)
  | .ready => runInstruction (beginStep rnd s)

/-- TICK (R226): `DT` counts down and stays at 0. -/
def tickEvent (s : State) : State :=
  { s with dt := if s.dt = 0 then 0 else s.dt - 1, report := none }

/-- KEY(k, pressed) (R229). -/
def keyEvent (k : Nibble) (pressed : Bool) (s : State) : State :=
  { s.setKey k pressed with report := none }

/-- One event of the host (R38). -/
def happen (e : Event) (s : State) : Host.Outcome State Fault Refusal :=
  match e with
  | .reset => .next (resetEvent s)
  | .load bytes => loadEvent bytes s
  | .step rnd => stepEvent rnd s
  | .tick => .next (tickEvent s)
  | .key k pressed => .next (keyEvent k pressed s)

/-- The next event: the oldest one the host has on its agenda, which leaves it, else a STEP with a free draw
(notes/assumptions/2.md). -/
def nextEvent (s : State) : Host.Outcome State Fault Refusal :=
  match s.agenda with
  | [] => stepEvent none s
  | e :: rest => happen e { s with agenda := rest }

end Sys2Proof.Machine
end

