-- ==== Sys2Proof/Machine/Step.lean ====
section
/-! DEFINITION. One step of the machine is one event (spec/10_state.md rules R38 to R40); and how a word is put where the next
STEP fetches it. -/

namespace Sys2Proof.Machine

/-- One event: the head of the host's agenda, else a STEP, which runs one instruction. -/
def step (s : State) : Host.Outcome State Fault Refusal := nextEvent s

/-- The state whose next step is the STEP that fetches the word with the table's bits `w`. -/
def State.withFetchWord (s : State) (nbits w : Nat) : State := placeFetchWord s (tableWord nbits w)

end Sys2Proof.Machine
end

