-- ==== Sys2Proof/Safety.lean ====
section
/-! DEFINITION. The terms in which claims about the machine are stated: what a safe run and the end of one are, which pieces
of state a step may change, when the spec says a step halts, and the invariant of reachable states. -/

set_option autoImplicit false

namespace Sys2Proof.Machine

/-! ### Safe runs -/

/-- The core has not halted. A halted state is never a final state of a successful run (spec/60_exceptions.md R214). -/
abbrev State.safe (s : State) : Prop := s.run = .ready

/-- A run has ended successfully: the core is not halted and the word at `pc` is a jump to itself (R225, decision D27). -/
def State.finished (s : State) : Bool :=
  decide s.safe &&
    match fetch s with
    | .ok w => decide (encode (.jp (fieldNNN w)) = w ∧ immAddr (fieldNNN w) = s.pc)
    | .error _ => false

/-- What the host sees of the core between events (R45): the framebuffer and the engine state. -/
def State.observed (s : State) : Vector (BitVec 64) 32 × RunState := (s.fb, s.run)

/-! ### Frames -/

/-- The pieces of state that a frame speaks of. -/
inductive Part where
  /-- `V[0]` to `V[15]`. -/
  | regs
  /-- `I`. -/
  | index
  /-- `pc`. -/
  | pc
  /-- `sp` and `Stack`. -/
  | stack
  /-- `Mem`, every byte of it. -/
  | mem
  /-- `FB`. -/
  | fb
  /-- `DT`. -/
  | dt
  /-- `Key`. -/
  | key
  /-- `run`. -/
  | run
  /-- The host's inputs: the agenda, the draw given with the STEP, whether a LOAD is still legal. -/
  | host
  /-- The index of the next free draw. -/
  | draws
  /-- The report put out. -/
  | report
  deriving DecidableEq, Repr

/-- The piece of state is the same in `t` as in `s`; memory is compared through the read of one byte. -/
def Unchanged (s t : State) : Part → Prop
  | .regs => ∀ z, t.getV z = s.getV z
  | .index => t.i = s.i
  | .pc => t.pc = s.pc
  | .stack => t.sp = s.sp ∧ t.stack = s.stack
  | .mem => ∀ a, t.byteAt a = s.byteAt a
  | .fb => t.fb = s.fb
  | .dt => t.dt = s.dt
  | .key => t.key = s.key
  | .run => t.run = s.run
  | .host => t.agenda = s.agenda ∧ t.draw = s.draw ∧ t.loadOpen = s.loadOpen
  | .draws => t.drawCount = s.drawCount
  | .report => t.report = s.report

/-- Every piece of state but the listed ones is unchanged. -/
def Frame (changed : List Part) (s t : State) : Prop := ∀ p, p ∉ changed → Unchanged s t p

/-- Every register but the listed ones is unchanged. -/
def RegsExcept (written : List Nibble) (s t : State) : Prop := ∀ z, z ∉ written → t.getV z = s.getV z

/-- `pc` moved `k` bytes on, modulo 65536 (R121). -/
def Advances (k : Nat) (s t : State) : Prop := t.pc.toNat = (s.pc.toNat + k) % 65536

/-- The instruction completes: `exec` answers a next state, of which `P` holds and in which at most the listed pieces of
state differ from before. -/
def Completes (i : Instr) (s : State) (changed : List Part) (P : State → Prop) : Prop :=
  ∃ t, exec i s = .next t ∧ Frame changed s t ∧ P t

/-- The outcome is the precise halt: `run` becomes `Halted(reason)` and nothing else changes, `pc` included (R213). -/
def HaltsWith (reason : HaltReason) (s : State) (o : Host.Outcome State Fault Refusal) : Prop :=
  ∃ t, o = .next t ∧ t.run = .halted reason ∧ Frame [.run] s t

/-! ### When a step halts -/

/-- The fatal condition of an instruction (the table of R210). -/
def haltCause (s : State) : Instr → Option HaltReason
  | .ret => if s.sp.val = 0 then some .stackUnderflow else none
  | .call _ => if s.sp.val = 16 then some .stackOverflow else none
  | .drw _ _ n => if 1 ≤ n.toNat ∧ 4096 ≤ s.i.toNat + n.toNat - 1 then some .outOfBounds else none
  | .ldB _ => if 4096 ≤ s.i.toNat + 2 then some .outOfBounds else none
  | .storeRegs x => if 4096 ≤ s.i.toNat + x.toNat then some .outOfBounds else none
  | .loadRegs x => if 4096 ≤ s.i.toNat + x.toNat then some .outOfBounds else none
  | .skp x => if 16 ≤ (s.getV x).toNat then some .invalidKey else none
  | .sknp x => if 16 ≤ (s.getV x).toNat then some .invalidKey else none
  | _ => none

/-- The word at `pc`, where there is one: the two bytes there, the first one high (R69). -/
def wordAtPc (s : State) : Word := s.byteAt s.pc.toNat ++ s.byteAt (s.pc.toNat + 1)

/-- The fatal condition of a STEP in `Ready`: the fetch first, then the instruction's own (R215). -/
def stepHaltCause (s : State) : Option HaltReason :=
  if 4095 ≤ s.pc.toNat then some .outOfBounds else haltCause s (decode (wordAtPc s))

/-! ### The invariant -/

/-- What holds of every state a run from RESET reaches: memory is in canonical form, `pc` is at most 0x10FE (R26), no slot
of the call stack holds more than 4096 (R123), and a core that may still be loaded has not halted. -/
abbrev MachineInv (s : State) : Prop :=
  Memory.wf s.mem = true ∧ s.pc.toNat ≤ 0x10FE ∧ (∀ k : Fin 16, (s.stack[k.val]).toNat ≤ 4096) ∧
    (s.loadOpen = true → s.run = .ready)

/-! ### Sequences -/

/-- Instructions executed one after another, whatever `pc` says; none where one does not answer a next state. -/
def execAll : List Instr → State → Option State
  | [], s => some s
  | i :: is, s =>
    match exec i s with
    | .next t => execAll is t
    | _ => none

/-- Events carried out one after another; none where one does not answer a next state. -/
def happenAll : List Event → State → Option State
  | [], s => some s
  | e :: es, s =>
    match happen e s with
    | .next t => happenAll es t
    | _ => none

/-! ### Cells of the framebuffer -/

/-- The index of the cell of column `col` and row `row` (R29). -/
def cellIndex (col row : Nat) : Nat := col + row * 64

/-! ### Stale slots of the call stack -/

/-- The states differ at most in slots of the call stack that are not occupied (R27, R31). -/
def SameButStale (s t : State) : Prop :=
  (∀ k : Fin 16, k.val < s.sp.val → s.stack[k.val] = t.stack[k.val]) ∧ { s with stack := t.stack } = t

end Sys2Proof.Machine
end

