-- ==== Sys2Proof/Certificates/Slice0/Obligations.lean ====
section
/-! DEFINITION. The statements for the provers, from the numbered rules of spec/. A clause that rests on a decision the spec
marks as its own (92_eei_decisions.md) names it in the docstring. -/

set_option autoImplicit false

open Sys2Proof Sys2Proof.Machine

/-! ### Reset and the invariant -/

/-- R46, R250, R251 (10_state.md section 9): the state after RESET. Everything but the font, which is `Mem[0..79]` and is not
zero, is zero, `pc` is 0x200 and `run` is `Ready`. That the stack slots are 0 is decision D6; that nothing survives a RESET is decision D18. -/
def Obligations.ResetLeavesEverythingButTheFontZeroAndPcAtLoadAddress : Prop :=
  (∀ z, State.reset.getV z = 0) ∧ State.reset.i = 0 ∧ State.reset.pc = 0x200 ∧ State.reset.sp.val = 0 ∧
    (∀ k : Fin 16, State.reset.stack[k.val] = 0) ∧ (∀ a, 80 ≤ a → State.reset.byteAt a = 0) ∧
    (∀ c, c < 2048 → State.reset.cell c = false) ∧ State.reset.dt = 0 ∧ (∀ k, State.reset.getKey k = false) ∧
    State.reset.run = .ready

/-- R66, R173: the font as RESET leaves it has the shape the source states (the low nibble of each of its 80 bytes is
zero), and the glyph of the digit A lies at 50. The byte values are decision D5, from general knowledge (log 6). -/
def Obligations.ResetFontHasFourPixelGlyphs : Prop :=
  (∀ a, a < 80 → State.reset.byteAt a &&& 0x0F = 0) ∧
    (List.range 5).map (fun r => State.reset.byteAt (5 * 0xA + r)) = [0xF0, 0x90, 0xF0, 0x90, 0x90]

/-- The invariant of `InvariantIsKeptByEveryStep` holds after RESET. -/
def Obligations.InvariantHoldsAtReset : Prop := MachineInv State.reset

/-- 10_state.md R26 (which the spec marks as derived), R123, R41: every event keeps memory canonical, `pc` at most 0x10FE, every
slot of the call stack at most 4096, and a core that may still be loaded not halted. The canonical form is the model's own. -/
def Obligations.InvariantIsKeptByEveryStep : Prop := ∀ s t, MachineInv s → step s = .next t → MachineInv t

/-! ### Decoding -/

/-- R90 to R95: decoding the bytes of a well-formed instruction gives it back, and the bytes after it. -/
def Obligations.DecodeOfEncodeIsIdentity : Prop :=
  ∀ (i : Instr) (rest : List Byte), i.wellFormed = true → decodeBytes (encodeBytes i ++ rest) = .ok (i, rest)

/-- R90 to R98: every word decodes to a well-formed instruction, which encodes to the same word: no bit is dropped. -/
def Obligations.EncodeOfDecodeIsIdentity : Prop := ∀ w : Word, encode (decode w) = w ∧ (decode w).wellFormed = true

/-- R94, R95: a word decodes to an instruction of the one row with `w & mask = match`, and to the catch-all exactly where
no row matches. That a literal 0 of a pattern must match is decision D26. -/
def Obligations.DecodeFollowsTheOpcodeMap : Prop :=
  ∀ w : Word,
    match (decode w).row with
    | some r => r ∈ opcodeMap ∧ r.matches w = true ∧ ∀ q ∈ opcodeMap, q.matches w = true → q = r
    | none => ∀ q ∈ opcodeMap, q.matches w = false

/-- R99 (which the spec marks as derived): the unknown words by family. -/
def Obligations.UnknownWordsAreThoseOfTheFamilies : Prop :=
  ∀ w : Word, decode w = .unknown w ↔
    (w.toNat / 4096 = 0 ∧ w.toNat ≠ 0x00E0 ∧ w.toNat ≠ 0x00EE) ∨
    (w.toNat / 4096 = 5 ∧ w.toNat % 16 ≠ 0) ∨
    (w.toNat / 4096 = 8 ∧ w.toNat % 16 ∈ [8, 9, 10, 11, 12, 13, 15]) ∨
    (w.toNat / 4096 = 9 ∧ w.toNat % 16 ≠ 0) ∨
    (w.toNat / 4096 = 14 ∧ w.toNat % 256 ∉ [0x9E, 0xA1]) ∨
    (w.toNat / 4096 = 15 ∧ w.toNat % 256 ∉ [0x07, 0x15, 0x1E, 0x29, 0x33, 0x55, 0x65])

/-- The encoding vectors X1 to X14 of 95_test_vectors.md. -/
def Obligations.SampleWordsDecode : Prop :=
  decode 0x1234 = .jp 0x234 ∧ decode 0xD12A = .drw 1 2 10 ∧ decode 0x8AB4 = .addReg 0xA 0xB ∧
    decode 0x8ABE = .shl 0xA 0xB ∧ decode 0x6F01 = .ldByte 15 0x01 ∧ decode 0xF533 = .ldB 5 ∧ decode 0xE2A1 = .sknp 2 ∧
    decode 0x00E0 = .cls ∧ decode 0x00EE = .ret ∧ decode 0x00E1 = .unknown 0x00E1 ∧ decode 0x5AB1 = .unknown 0x5AB1 ∧
    decode 0x8AB8 = .unknown 0x8AB8 ∧ decode 0xF50A = .unknown 0xF50A ∧ decode 0x3412 = .seByte 4 0x12

/-! ### Memory and fetch -/

/-- R62, R63: a read below 4096 gives the byte the latest write put there; a write changes no other byte and nothing
else; from 4096 on both raise OutOfBounds. -/
def Obligations.MemoryReadsWhatWasWritten : Prop :=
  ∀ (a : Nat) (v : Byte) (s : State),
    (a < 4096 → memRead a s = .ok (s.byteAt a) ∧ ∃ t, memWrite a v s = .ok t ∧ memRead a t = .ok v ∧
      Frame [.mem] s t ∧ ∀ b, b ≠ a → t.byteAt b = s.byteAt b) ∧
    (4096 ≤ a → memRead a s = .error .outOfBounds ∧ memWrite a v s = .error .outOfBounds)

/-- R69: the word fetched is `Mem[pc] * 256 + Mem[pc + 1]`, and a program image has the same order: the first two bytes
of a LOAD that fits are the word fetched from LOAD_ADDR, the high one first. -/
def Obligations.FetchAndImageAreBigEndian : Prop :=
  (∀ s : State, s.pc.toNat + 1 < 4096 → ∃ w, fetch s = .ok w ∧
    w.toNat = (s.byteAt s.pc.toNat).toNat * 256 + (s.byteAt (s.pc.toNat + 1)).toNat) ∧
  (∀ (s : State) (b0 b1 : Byte) (rest : List Byte), s.loadOpen = true → rest.length + 2 ≤ 3584 → s.pc = 0x200 →
    ∃ t w, happen (.load (b0 :: b1 :: rest)) s = .next t ∧ fetch t = .ok w ∧ w.toNat = b0.toNat * 256 + b1.toNat)

/-- R74 (which the spec marks as derived): bytes that `Fx55` stores after itself are the very next word fetched. -/
def Obligations.StoredCodeIsFetchedNext : Prop :=
  ∀ (x : Nibble) (s : State), 1 ≤ x.toNat → s.i.toNat = s.pc.toNat + 2 → s.i.toNat + x.toNat < 4096 →
    ∃ t w, exec (.storeRegs x) s = .next t ∧ fetch t = .ok w ∧ w.toNat = (s.getV 0).toNat * 256 + (s.getV 1).toNat

/-! ### The step -/

/-- R40, R120: in `Ready`, where the two bytes at `pc` are in memory and decode to `i`, a STEP is `i` executed, after the
inputs and outputs of the event are set: the draw given with it (a free one where the agenda is empty), no report yet, no
LOAD from here on. The agenda is the model's own (log 2). -/
def Obligations.StepExecutesTheDecodedInstruction : Prop :=
  ∀ (s : State) (i : Instr), s.run = .ready → s.pc.toNat + 1 < 4096 →
    decodeBytes [s.byteAt s.pc.toNat, s.byteAt (s.pc.toNat + 1)] = .ok (i, []) →
    (s.agenda = [] → step s = exec i { s with draw := none, report := none, loadOpen := false }) ∧
    (∀ d rest, s.agenda = .step d :: rest →
      step s = exec i { s with agenda := rest, draw := d, report := none, loadOpen := false })

/-- R40: a STEP in `Halted(r)` changes nothing, emits no report and leaves `Halted(r)`; only the model's record of the
event's inputs and outputs is written. -/
def Obligations.HaltedStepDoesNothing : Prop :=
  ∀ (s : State) (r : HaltReason) (d : Option Byte), s.run = .halted r →
    ∃ t, happen (.step d) s = .next t ∧ t.run = .halted r ∧ Frame [.host, .report] s t ∧ t.report = none ∧
      t.agenda = s.agenda

/-- R210, R215: a STEP in `Ready` halts exactly where the table of R210 says, with the reason it gives, the fetch before
the instruction; it then changes nothing else (R213, decision D9). Else `run` stays `Ready`. -/
def Obligations.StepHaltsExactlyOnTheFatalConditions : Prop :=
  ∀ (d : Option Byte) (s : State), s.run = .ready →
    match stepHaltCause s with
    | some r => HaltsWith r (beginStep d s) (happen (.step d) s)
    | none => ∃ t, happen (.step d) s = .next t ∧ t.run = .ready

/-- R22 (which the spec marks as derived): no event raises InvalidRegister. -/
def Obligations.InvalidRegisterIsNeverRaised : Prop :=
  ∀ (e : Event) (s t : State), happen e s = .next t → t.run = .halted .invalidRegister →
    s.run = .halted .invalidRegister

/-- R214 (decision D18): only RESET leaves `Halted`, and a halt reason is never overwritten. A LOAD in `Halted` is left out
where it is no legal move. -/
def Obligations.OnlyResetLeavesHalted : Prop :=
  ∀ (e : Event) (s t : State) (r : HaltReason), s.run = .halted r → s.loadOpen = false → e ≠ .reset →
    happen e s = .next t → t.run = .halted r

/-- R38, R41: every step completes, but for a LOAD on the agenda that is no longer legal, which is refused (D19, log 5). -/
def Obligations.EveryStepCompletesButALateLoad : Prop :=
  ∀ s : State, (∃ t, step s = .next t) ∨
    (step s = .refused .loadOutOfTurn ∧ s.loadOpen = false ∧ ∃ bytes rest, s.agenda = .load bytes :: rest)

/-- R225 (decision D27), R124: where a run has ended, in a jump to its own address, a STEP leaves the machine as it was, and the
run has still ended. -/
def Obligations.FinishedRunStaysFinished : Prop :=
  ∀ (s : State) (d : Option Byte), s.finished = true →
    happen (.step d) s = .next (beginStep d s) ∧ (beginStep d s).finished = true

/-! ### Which instructions write what -/

/-- R27: no instruction reads or writes a slot or `sp` except `2nnn` and `00EE`; `00EE` writes no slot (R31). -/
def Obligations.OnlyCallAndReturnTouchTheStack : Prop :=
  ∀ (i : Instr) (s t : State), exec i s = .next t →
    (t.sp ≠ s.sp → i = .ret ∨ ∃ nnn, i = .call nnn) ∧ (t.stack ≠ s.stack → ∃ nnn, i = .call nnn)

/-- R67, R71: only `Fx33` and `Fx55` change a byte of memory, and only bytes from `I` on: three, or `x + 1`. -/
def Obligations.OnlyStoresWriteMemory : Prop :=
  ∀ (i : Instr) (s t : State) (a : Nat), exec i s = .next t → t.byteAt a ≠ s.byteAt a →
    (∃ x, i = .ldB x ∧ effAddr s 0 ≤ a ∧ a < effAddr s 3) ∨
    (∃ x, i = .storeRegs x ∧ effAddr s 0 ≤ a ∧ a ≤ effAddr s x.toNat)

/-- R29, R184: only `00E0` and `Dxyn` write the framebuffer. -/
def Obligations.OnlyClearAndDrawWriteTheFramebuffer : Prop :=
  ∀ (i : Instr) (s t : State), exec i s = .next t → t.fb ≠ s.fb → i = .cls ∨ ∃ x y n, i = .drw x y n

/-- R23, R170: only `Annn`, `Fx1E` and `Fx29` write `I` (that `Fx55` and `Fx65` do not is decision D16). -/
def Obligations.OnlyThreeInstructionsWriteI : Prop :=
  ∀ (i : Instr) (s t : State), exec i s = .next t → t.i ≠ s.i →
    (∃ nnn, i = .ldI nnn) ∨ (∃ x, i = .addI x) ∨ (∃ x, i = .ldF x)

/-- R21 (decision D11): `VF` is written by the flag-defining instructions and by those whose `x` field is F, and by no other. -/
def Obligations.OnlyFlagInstructionsOrXFWriteVF : Prop :=
  ∀ (i : Instr) (s t : State), exec i s = .next t → t.getV 15 ≠ s.getV 15 →
    (∃ x y, i = .addReg x y ∨ i = .subReg x y ∨ i = .shr x y ∨ i = .subnReg x y ∨ i = .shl x y) ∨
    (∃ x y n, i = .drw x y n) ∨ (∃ kk, i = .ldByte 15 kk ∨ i = .addByte 15 kk ∨ i = .rnd 15 kk) ∨
    (∃ y, i = .ldReg 15 y ∨ i = .orReg 15 y ∨ i = .andReg 15 y ∨ i = .xorReg 15 y) ∨ i = .ldVxDT 15 ∨ i = .loadRegs 15

/-- R32, R33: no instruction writes a key, only `Fx15` writes `DT`, and no instruction touches the host's inputs. -/
def Obligations.InstructionsLeaveKeysAndTimerToTheirEvents : Prop :=
  ∀ (i : Instr) (s t : State), exec i s = .next t →
    t.key = s.key ∧ t.agenda = s.agenda ∧ t.draw = s.draw ∧ t.loadOpen = s.loadOpen ∧
    (t.dt ≠ s.dt → ∃ x, i = .ldDTVx x)

/-- R27, R31 (decision D6): the unoccupied slots of the call stack are unobservable: two states that differ only there step to states
that differ only there. -/
def Obligations.StaleStackSlotsAreUnobservable : Prop :=
  ∀ s u : State, SameButStale s u →
    (∃ t v, step s = .next t ∧ step u = .next v ∧ SameButStale t v) ∨ (∃ r, step s = .refused r ∧ step u = .refused r)

/-! ### Events -/

/-- R226: TICK takes 1 from `DT`, which stays at 0 once there, and changes nothing else, whether `run` is `Ready` or `Halted`
(decision D17). The event leaves the agenda and puts out no report. -/
def Obligations.TickCountsDownToZero : Prop :=
  ∀ (s : State) (rest : List Event), s.agenda = .tick :: rest →
    ∃ t, step s = .next t ∧ t.dt.toNat = s.dt.toNat - 1 ∧ Frame [.dt, .host, .report] s t ∧ t.agenda = rest ∧
      t.draw = s.draw ∧ t.loadOpen = s.loadOpen ∧ t.report = none

/-- R229: KEY(k, pressed) sets `Key[k]` and changes nothing else, whether `run` is `Ready` or `Halted` (decision D17). -/
def Obligations.KeySetsOneKey : Prop :=
  ∀ (s : State) (k : Nibble) (pressed : Bool) (rest : List Event), s.agenda = .key k pressed :: rest →
    ∃ t, step s = .next t ∧ t.getKey k = pressed ∧ (∀ j, j ≠ k → t.getKey j = s.getKey j) ∧
      Frame [.key, .host, .report] s t ∧ t.agenda = rest ∧ t.draw = s.draw ∧ t.loadOpen = s.loadOpen ∧ t.report = none

/-- R41: a legal LOAD of at most 3584 bytes puts byte `k` at 512 + k and changes nothing else of the core; a longer one
copies nothing and halts with ProgramTooLarge. That it is legal only between a RESET and the first STEP is decision D19 (log 5). -/
def Obligations.LoadCopiesTheProgramOrHalts : Prop :=
  ∀ (s : State) (bytes : List Byte) (rest : List Event), s.agenda = .load bytes :: rest → s.loadOpen = true →
    (512 + bytes.length ≤ 4096 →
      ∃ t, step s = .next t ∧ (∀ k, k < bytes.length → t.byteAt (512 + k) = bytes.getD k 0) ∧
        (∀ a, a < 512 ∨ 512 + bytes.length ≤ a → t.byteAt a = s.byteAt a) ∧ Frame [.mem, .host, .report] s t ∧
        t.agenda = rest ∧ t.draw = s.draw ∧ t.loadOpen = false ∧ t.report = none) ∧
    (4096 < 512 + bytes.length →
      ∃ t, step s = .next t ∧ t.run = .halted .programTooLarge ∧ Frame [.run, .host, .report] s t ∧ t.agenda = rest ∧
        t.draw = s.draw ∧ t.loadOpen = false ∧ t.report = none)

/-- R41, R231: after a LOAD or a STEP, another LOAD has no move until a RESET (decision D19, U16). The refusal is the model's form
of it (log 5). -/
def Obligations.LoadAfterLoadOrStepIsRefused : Prop :=
  ∀ (s t : State) (e : Event) (bytes : List Byte), (∃ d, e = .step d) ∨ (∃ b, e = .load b) → happen e s = .next t →
    happen (.load bytes) t = .refused .loadOutOfTurn

/-- R250 (decision D18): whatever the state, halted or not, RESET leads to the reset state; only what the host still has
to issue and the index of the next free draw, which are no state of the core, stay. -/
def Obligations.ResetEventGivesTheResetState : Prop :=
  ∀ (s : State) (rest : List Event), s.agenda = .reset :: rest →
    ∃ t, step s = .next t ∧ Frame [.host, .draws] State.reset t ∧ t.agenda = rest ∧ t.loadOpen = true ∧
      t.drawCount = s.drawCount

/-! ### Control transfer and skips -/

/-- R124: `1nnn` goes to nnn and changes nothing else. -/
def Obligations.JumpGoesToItsAddress : Prop :=
  ∀ (nnn : Addr) (s : State), Completes (.jp nnn) s [.pc] fun t => t.pc.toNat = nnn.toNat

/-- R126: `Bnnn` goes to nnn + V[0], which is reduced by nothing (decision D3). -/
def Obligations.IndexedJumpAddsV0 : Prop :=
  ∀ (nnn : Addr) (s : State), Completes (.jpV0 nnn) s [.pc] fun t => t.pc.toNat = nnn.toNat + (s.getV 0).toNat

/-- R125, R30 (decision D8): with a free slot, `2nnn` pushes `pc + 2` on the top and goes to nnn; every other slot keeps its
value. With 16 calls outstanding it halts with StackOverflow and changes nothing else (decision D9). -/
def Obligations.CallPushesTheReturnAddressOrHalts : Prop :=
  ∀ (nnn : Addr) (s : State),
    (∀ h : s.sp.val < 16, Completes (.call nnn) s [.pc, .stack] fun t => t.pc.toNat = nnn.toNat ∧ t.sp.val = s.sp.val + 1 ∧
      (t.stack[s.sp.val]).toNat = (s.pc.toNat + 2) % 65536 ∧ ∀ k : Fin 16, k.val ≠ s.sp.val → t.stack[k.val] = s.stack[k.val]) ∧
    (s.sp.val = 16 → HaltsWith .stackOverflow s (exec (.call nnn) s))

/-- R123, R31: with a call outstanding, `00EE` goes to the value on the top, with no further increment; no slot changes. On
an empty stack it halts with StackUnderflow and changes nothing else (decision D9). -/
def Obligations.ReturnGoesToThePoppedValueOrHalts : Prop :=
  ∀ s : State,
    (∀ h : 0 < s.sp.val, Completes .ret s [.pc, .stack] fun t =>
      t.pc = s.stack[s.sp.val - 1] ∧ t.sp.val = s.sp.val - 1 ∧ t.stack = s.stack) ∧
    (s.sp.val = 0 → HaltsWith .stackUnderflow s (exec .ret s))

/-- R127 (with the value of decision D8): after N nested calls, the k-th return lands on the instruction after the
(N - k + 1)-th call, and nothing but `pc` and the stack has changed. -/
def Obligations.NestedCallsReturnInReverseOrder : Prop :=
  ∀ (targets : List Addr) (s : State) (k : Nat), s.sp.val + targets.length ≤ 16 → k ≤ targets.length →
    ∃ t, execAll (targets.map Instr.call ++ List.replicate k Instr.ret) s = some t ∧ Frame [.pc, .stack] s t ∧
      t.sp.val = s.sp.val + targets.length - k ∧
      (1 ≤ k → t.pc = (s.pc :: targets.map (fun a => zext16 a)).getD (targets.length - k) 0 + 2)

/-- R131 to R134: the four register skips add 4 to `pc` where their condition holds, else 2, and change nothing else. -/
def Obligations.RegisterSkipsMovePcByFourOrTwo : Prop :=
  ∀ (x y : Nibble) (kk : Byte) (s : State),
    Completes (.seByte x kk) s [.pc] (Advances (if s.getV x = kk then 4 else 2) s) ∧
    Completes (.sneByte x kk) s [.pc] (Advances (if s.getV x = kk then 2 else 4) s) ∧
    Completes (.seReg x y) s [.pc] (Advances (if s.getV x = s.getV y then 4 else 2) s) ∧
    Completes (.sneReg x y) s [.pc] (Advances (if s.getV x = s.getV y then 2 else 4) s)

/-- R193, R194: with `V[x]` below 16, `Ex9E` skips where key `V[x]` is down and `ExA1` where it is up; nothing else changes.
With `V[x]` of 16 or more (decision D12) both halt with InvalidKey and change nothing else (decision D9). -/
def Obligations.KeySkipsFollowTheNamedKeyOrHalt : Prop :=
  ∀ (x : Nibble) (s : State),
    ((s.getV x).toNat < 16 →
      Completes (.skp x) s [.pc] (Advances (if s.getKey (BitVec.ofNat 4 (s.getV x).toNat) = true then 4 else 2) s) ∧
      Completes (.sknp x) s [.pc] (Advances (if s.getKey (BitVec.ofNat 4 (s.getV x).toNat) = true then 2 else 4) s)) ∧
    (16 ≤ (s.getV x).toNat →
      HaltsWith .invalidKey s (exec (.skp x) s) ∧ HaltsWith .invalidKey s (exec (.sknp x) s))

/-! ### Immediates and the ALU -/

/-- R140: `6xkk` gives `V[x]` the value kk, `VF` as any other register. -/
def Obligations.LoadImmediateSetsOneRegister : Prop :=
  ∀ (x : Nibble) (kk : Byte) (s : State), Completes (.ldByte x kk) s [.regs, .pc] fun t =>
    t.getV x = kk ∧ RegsExcept [x] s t ∧ Advances 2 s t

/-- R141: `7xkk` adds modulo 256 and writes no flag. -/
def Obligations.AddImmediateWrapsAndWritesNoFlag : Prop :=
  ∀ (x : Nibble) (kk : Byte) (s : State), Completes (.addByte x kk) s [.regs, .pc] fun t =>
    (t.getV x).toNat = ((s.getV x).toNat + kk.toNat) % 256 ∧ RegsExcept [x] s t ∧ Advances 2 s t

/-- R151: `8xy0` copies `V[y]` to `V[x]`. -/
def Obligations.MoveCopiesOneRegister : Prop :=
  ∀ (x y : Nibble) (s : State), Completes (.ldReg x y) s [.regs, .pc] fun t =>
    t.getV x = s.getV y ∧ RegsExcept [x] s t ∧ Advances 2 s t

/-- R152 to R154: OR, AND and XOR, bit by bit; no other register is written, `VF` included (decision D11). -/
def Obligations.LogicOperationsWorkBitByBit : Prop :=
  ∀ (x y : Nibble) (s : State),
    Completes (.orReg x y) s [.regs, .pc] (fun t => (∀ j, j < 8 → (t.getV x).getLsbD j =
      ((s.getV x).getLsbD j || (s.getV y).getLsbD j)) ∧ RegsExcept [x] s t ∧ Advances 2 s t) ∧
    Completes (.andReg x y) s [.regs, .pc] (fun t => (∀ j, j < 8 → (t.getV x).getLsbD j =
      ((s.getV x).getLsbD j && (s.getV y).getLsbD j)) ∧ RegsExcept [x] s t ∧ Advances 2 s t) ∧
    Completes (.xorReg x y) s [.regs, .pc] (fun t => (∀ j, j < 8 → (t.getV x).getLsbD j =
      ((s.getV x).getLsbD j ^^ (s.getV y).getLsbD j)) ∧ RegsExcept [x] s t ∧ Advances 2 s t)

/-- R155: `8xy4` adds modulo 256 and sets `VF` to the carry out; with x = F the sum is lost and `VF` ends as the carry (the order
of R150, decision D10). -/
def Obligations.AddSetsTheCarryFlag : Prop :=
  ∀ (x y : Nibble) (s : State), Completes (.addReg x y) s [.regs, .pc] fun t =>
    (x ≠ 15 → (t.getV x).toNat = ((s.getV x).toNat + (s.getV y).toNat) % 256) ∧
    t.getV 15 = (if 255 < (s.getV x).toNat + (s.getV y).toNat then 1 else 0) ∧ RegsExcept [x, 15] s t ∧ Advances 2 s t

/-- R156: `8xy5` subtracts modulo 256 and sets `VF` to 1 exactly when `V[x] > V[y]`, strictly, before subtracting; with
x = F `VF` ends as the flag (decision D10). -/
def Obligations.SubtractSetsTheStrictlyGreaterFlag : Prop :=
  ∀ (x y : Nibble) (s : State), Completes (.subReg x y) s [.regs, .pc] fun t =>
    (x ≠ 15 → (t.getV x).toNat = ((s.getV x).toNat + 256 - (s.getV y).toNat) % 256) ∧
    t.getV 15 = (if (s.getV y).toNat < (s.getV x).toNat then 1 else 0) ∧ RegsExcept [x, 15] s t ∧ Advances 2 s t

/-- R158 (which the spec derives from R156): `8xy7` is the subtraction with the operands exchanged, the destination still
`V[x]`; with x = F `VF` ends as the flag (decision D10). -/
def Obligations.ReverseSubtractSetsTheStrictlyGreaterFlag : Prop :=
  ∀ (x y : Nibble) (s : State), Completes (.subnReg x y) s [.regs, .pc] fun t =>
    (x ≠ 15 → (t.getV x).toNat = ((s.getV y).toNat + 256 - (s.getV x).toNat) % 256) ∧
    t.getV 15 = (if (s.getV x).toNat < (s.getV y).toNat then 1 else 0) ∧ RegsExcept [x, 15] s t ∧ Advances 2 s t

/-- R157, R159, R96: the shifts move `V[x]` by one place, whatever `y` is, and set `VF` to the bit shifted out; with
x = F `VF` ends as that bit (decision D10). -/
def Obligations.ShiftsMoveVxByOneAndFlagTheEvictedBit : Prop :=
  ∀ (x y : Nibble) (s : State),
    Completes (.shr x y) s [.regs, .pc] (fun t => (x ≠ 15 → (t.getV x).toNat = (s.getV x).toNat / 2) ∧
      (t.getV 15).toNat = (s.getV x).toNat % 2 ∧ RegsExcept [x, 15] s t ∧ Advances 2 s t) ∧
    Completes (.shl x y) s [.regs, .pc] (fun t => (x ≠ 15 → (t.getV x).toNat = (2 * (s.getV x).toNat) % 256) ∧
      (t.getV 15).toNat = (s.getV x).toNat / 128 ∧ RegsExcept [x, 15] s t ∧ Advances 2 s t)

/-! ### The index register and memory -/

/-- R171: `Annn` gives `I` the value nnn. -/
def Obligations.LoadIndexSetsI : Prop :=
  ∀ (nnn : Addr) (s : State), Completes (.ldI nnn) s [.index, .pc] fun t => t.i.toNat = nnn.toNat ∧ Advances 2 s t

/-- R172: `Fx1E` adds `V[x]` to `I` modulo 65536 (decision D3) and writes no register (decision D11). -/
def Obligations.AddToIndexWrapsAt65536 : Prop :=
  ∀ (x : Nibble) (s : State), Completes (.addI x) s [.index, .pc] fun t =>
    t.i.toNat = (s.i.toNat + (s.getV x).toNat) % 65536 ∧ Advances 2 s t

/-- R173: `Fx29` gives `I` the value 5 * V[x], of the whole byte (decision D13). -/
def Obligations.GlyphAddressIsFiveTimesVx : Prop :=
  ∀ (x : Nibble) (s : State), Completes (.ldF x) s [.index, .pc] fun t =>
    t.i.toNat = 5 * (s.getV x).toNat ∧ Advances 2 s t

/-- R174: with `I + 2` in memory, `Fx33` stores the hundreds, tens and ones of `V[x]` at `I`, `I + 1`, `I + 2`, and changes
no other byte; else it halts with OutOfBounds and changes nothing else (decision D9). -/
def Obligations.BcdStoresThreeDigitsOrHalts : Prop :=
  ∀ (x : Nibble) (s : State),
    (effAddr s 2 < 4096 → Completes (.ldB x) s [.mem, .pc] fun t =>
      (t.byteAt (effAddr s 0)).toNat = (s.getV x).toNat / 100 ∧
      (t.byteAt (effAddr s 1)).toNat = (s.getV x).toNat / 10 % 10 ∧
      (t.byteAt (effAddr s 2)).toNat = (s.getV x).toNat % 10 ∧
      (∀ a, a < effAddr s 0 ∨ effAddr s 2 < a → t.byteAt a = s.byteAt a) ∧ Advances 2 s t) ∧
    (4096 ≤ effAddr s 2 → HaltsWith .outOfBounds s (exec (.ldB x) s))

/-- R175: with `I + x` in memory, `Fx55` stores `V[k]` at `I + k` for every k from 0 to x, inclusive, and changes no other
byte and no register; else it halts with OutOfBounds and changes nothing else (decision D9). -/
def Obligations.BulkStoreStoresTheRangeOrHalts : Prop :=
  ∀ (x : Nibble) (s : State),
    (effAddr s x.toNat < 4096 → Completes (.storeRegs x) s [.mem, .pc] fun t =>
      (∀ k, k ≤ x.toNat → t.byteAt (effAddr s k) = s.getV (BitVec.ofNat 4 k)) ∧
      (∀ a, a < effAddr s 0 ∨ effAddr s x.toNat < a → t.byteAt a = s.byteAt a) ∧ Advances 2 s t) ∧
    (4096 ≤ effAddr s x.toNat → HaltsWith .outOfBounds s (exec (.storeRegs x) s))

/-- R176: with `I + x` in memory, `Fx65` loads `V[k]` from `I + k` for every k from 0 to x, inclusive, and changes no other
register; else it halts with OutOfBounds and changes nothing else (decision D9). -/
def Obligations.BulkLoadLoadsTheRangeOrHalts : Prop :=
  ∀ (x : Nibble) (s : State),
    (effAddr s x.toNat < 4096 → Completes (.loadRegs x) s [.regs, .pc] fun t =>
      (∀ z : Nibble, z.toNat ≤ x.toNat → t.getV z = s.byteAt (effAddr s z.toNat)) ∧
      (∀ z : Nibble, x.toNat < z.toNat → t.getV z = s.getV z) ∧ Advances 2 s t) ∧
    (4096 ≤ effAddr s x.toNat → HaltsWith .outOfBounds s (exec (.loadRegs x) s))

/-- R176: `Fx55` and then, from any state with the same memory and the same `I`, `Fx65` with the same x restores
`V[0]` to `V[x]`. -/
def Obligations.BulkLoadRestoresWhatBulkStoreSaved : Prop :=
  ∀ (x : Nibble) (s : State), effAddr s x.toNat < 4096 →
    ∃ t, exec (.storeRegs x) s = .next t ∧ ∀ u : State, u.mem = t.mem → u.i = s.i →
      ∃ v, exec (.loadRegs x) u = .next v ∧ ∀ z : Nibble, z.toNat ≤ x.toNat → v.getV z = s.getV z

/-! ### The framebuffer -/

/-- R180: `00E0` clears every cell and writes no register. -/
def Obligations.ClearZeroesEveryCell : Prop :=
  ∀ s : State, Completes .cls s [.fb, .pc] fun t => (∀ c, c < 2048 → t.cell c = false) ∧ Advances 2 s t

/-- R181, R182: with its n rows in memory (or n = 0), `Dxyn` XORs bit 7 - b of row r onto the cell of column (x0 + b) mod 64 and
row (y0 + r) mod 32, leaves every other cell alone, and sets `VF` to 1 exactly when some lit cell met a 1 bit, else to 0; no
other register changes. The coordinates are those before `VF` is written (decision D10). -/
def Obligations.DrawXorsTheSpriteAndFlagsCollision : Prop :=
  ∀ (x y n : Nibble) (s : State), n.toNat = 0 ∨ effAddr s n.toNat ≤ 4096 →
    Completes (.drw x y n) s [.regs, .fb, .pc] fun t =>
      (∀ r b, r < n.toNat → b < 8 →
        t.cell (cellIndex (((s.getV x).toNat + b) % 64) (((s.getV y).toNat + r) % 32)) =
          (s.cell (cellIndex (((s.getV x).toNat + b) % 64) (((s.getV y).toNat + r) % 32)) ^^
            (s.byteAt (effAddr s r)).getLsbD (7 - b))) ∧
      (∀ c, c < 2048 → (∀ r b, r < n.toNat → b < 8 →
          c ≠ cellIndex (((s.getV x).toNat + b) % 64) (((s.getV y).toNat + r) % 32)) → t.cell c = s.cell c) ∧
      (t.getV 15 = 0 ∨ t.getV 15 = 1) ∧
      (t.getV 15 = 1 ↔ ∃ r b, r < n.toNat ∧ b < 8 ∧
        s.cell (cellIndex (((s.getV x).toNat + b) % 64) (((s.getV y).toNat + r) % 32)) = true ∧
        (s.byteAt (effAddr s r)).getLsbD (7 - b) = true) ∧
      RegsExcept [15] s t ∧ Advances 2 s t

/-- R181: with a row outside memory `Dxyn` halts with OutOfBounds and changes nothing else (decision D9, C6). -/
def Obligations.DrawFromOutsideMemoryHalts : Prop :=
  ∀ (x y n : Nibble) (s : State), 1 ≤ n.toNat → 4096 < effAddr s n.toNat →
    HaltsWith .outOfBounds s (exec (.drw x y n) s)

/-- R182 point 5 (which the spec derives from R181): the same sprite drawn twice at the same place restores the framebuffer, and the
second draw reports 1 exactly when some cell under a 1 bit was 0 before the first. With x or y = F the first draw moves
the place, so those are left out. -/
def Obligations.DrawingTwiceRestoresTheFramebuffer : Prop :=
  ∀ (x y n : Nibble) (s : State), x ≠ 15 → y ≠ 15 → n.toNat = 0 ∨ effAddr s n.toNat ≤ 4096 →
    ∃ t u, exec (.drw x y n) s = .next t ∧ exec (.drw x y n) t = .next u ∧ u.fb = s.fb ∧
      (u.getV 15 = 1 ↔ ∃ r b, r < n.toNat ∧ b < 8 ∧ (s.byteAt (effAddr s r)).getLsbD (7 - b) = true ∧
        s.cell (cellIndex (((s.getV x).toNat + b) % 64) (((s.getV y).toNat + r) % 32)) = false)

/-! ### Timer, random and the unknown instruction -/

/-- R191, R192: `Fx07` copies `DT` to `V[x]` and `Fx15` copies `V[x]` to `DT`. -/
def Obligations.TimerMovesCopyTheDelayTimer : Prop :=
  ∀ (x : Nibble) (s : State),
    Completes (.ldVxDT x) s [.regs, .pc] (fun t => t.getV x = s.dt ∧ RegsExcept [x] s t ∧ Advances 2 s t) ∧
    Completes (.ldDTVx x) s [.dt, .pc] (fun t => t.dt = s.getV x ∧ Advances 2 s t)

/-- R195 (decision D14): `Cxkk` gives `V[x]` the draw AND kk. Where nobody has fixed the draw it is a free value (log 3): every bit
outside kk is 0 and nothing is said of the others; and every value with no bit outside kk is the result for some draw. -/
def Obligations.RandomIsTheDrawMasked : Prop :=
  ∀ (x : Nibble) (kk : Byte) (s : State),
    Completes (.rnd x kk) s [.regs, .pc, .draws] (fun t =>
      (∀ b, s.draw = some b → t.getV x = b &&& kk) ∧ (∀ j, kk.getLsbD j = false → (t.getV x).getLsbD j = false) ∧
      RegsExcept [x] s t ∧ Advances 2 s t) ∧
    ∀ v : Byte, (∀ j, kk.getLsbD j = false → v.getLsbD j = false) →
      ∃ b t, exec (.rnd x kk) { s with draw := some b } = .next t ∧ t.getV x = v

/-- R200: an unknown word changes nothing but `pc`, and the report (pc, w) is put out. -/
def Obligations.UnknownIsAReportedNoOp : Prop :=
  ∀ (w : Word) (s : State), isListed w = false → Completes (.unknown w) s [.pc, .report] fun t =>
    t.report = some ⟨s.pc, w⟩ ∧ Advances 2 s t
end

