-- ==== Sys2Proof/Laws/State.lean ====
section
/-! SUPPORT. What each setter does to each field of the state, and what reads of registers, keys, memory bytes and cells
see of it: one lemma per field per setter, all true by unfolding. -/

namespace Sys2Proof.Machine

variable (s : State)

/-! `setV` -/
@[simp] theorem State.setV_v (x : Nibble) (b : Byte) : (s.setV x b).v = s.v.set x.toNat b x.isLt := rfl
@[simp] theorem State.setV_i (x : Nibble) (b : Byte) : (s.setV x b).i = s.i := rfl
@[simp] theorem State.setV_pc (x : Nibble) (b : Byte) : (s.setV x b).pc = s.pc := rfl
@[simp] theorem State.setV_sp (x : Nibble) (b : Byte) : (s.setV x b).sp = s.sp := rfl
@[simp] theorem State.setV_stack (x : Nibble) (b : Byte) : (s.setV x b).stack = s.stack := rfl
@[simp] theorem State.setV_mem (x : Nibble) (b : Byte) : (s.setV x b).mem = s.mem := rfl
@[simp] theorem State.setV_fb (x : Nibble) (b : Byte) : (s.setV x b).fb = s.fb := rfl
@[simp] theorem State.setV_dt (x : Nibble) (b : Byte) : (s.setV x b).dt = s.dt := rfl
@[simp] theorem State.setV_key (x : Nibble) (b : Byte) : (s.setV x b).key = s.key := rfl
@[simp] theorem State.setV_run (x : Nibble) (b : Byte) : (s.setV x b).run = s.run := rfl
@[simp] theorem State.setV_agenda (x : Nibble) (b : Byte) : (s.setV x b).agenda = s.agenda := rfl
@[simp] theorem State.setV_draw (x : Nibble) (b : Byte) : (s.setV x b).draw = s.draw := rfl
@[simp] theorem State.setV_drawCount (x : Nibble) (b : Byte) : (s.setV x b).drawCount = s.drawCount := rfl
@[simp] theorem State.setV_report (x : Nibble) (b : Byte) : (s.setV x b).report = s.report := rfl
@[simp] theorem State.setV_loadOpen (x : Nibble) (b : Byte) : (s.setV x b).loadOpen = s.loadOpen := rfl
@[simp] theorem State.setV_getKey (x : Nibble) (b : Byte) (z : Nibble) : (s.setV x b).getKey z = s.getKey z := rfl
@[simp] theorem State.setV_byteAt (x : Nibble) (b : Byte) (a : Nat) : (s.setV x b).byteAt a = s.byteAt a := rfl
@[simp] theorem State.setV_cell (x : Nibble) (b : Byte) (c : Nat) : (s.setV x b).cell c = s.cell c := rfl

/-! `setI` -/
@[simp] theorem State.setI_v (w : Word) : (s.setI w).v = s.v := rfl
@[simp] theorem State.setI_i (w : Word) : (s.setI w).i = w := rfl
@[simp] theorem State.setI_pc (w : Word) : (s.setI w).pc = s.pc := rfl
@[simp] theorem State.setI_sp (w : Word) : (s.setI w).sp = s.sp := rfl
@[simp] theorem State.setI_stack (w : Word) : (s.setI w).stack = s.stack := rfl
@[simp] theorem State.setI_mem (w : Word) : (s.setI w).mem = s.mem := rfl
@[simp] theorem State.setI_fb (w : Word) : (s.setI w).fb = s.fb := rfl
@[simp] theorem State.setI_dt (w : Word) : (s.setI w).dt = s.dt := rfl
@[simp] theorem State.setI_key (w : Word) : (s.setI w).key = s.key := rfl
@[simp] theorem State.setI_run (w : Word) : (s.setI w).run = s.run := rfl
@[simp] theorem State.setI_agenda (w : Word) : (s.setI w).agenda = s.agenda := rfl
@[simp] theorem State.setI_draw (w : Word) : (s.setI w).draw = s.draw := rfl
@[simp] theorem State.setI_drawCount (w : Word) : (s.setI w).drawCount = s.drawCount := rfl
@[simp] theorem State.setI_report (w : Word) : (s.setI w).report = s.report := rfl
@[simp] theorem State.setI_loadOpen (w : Word) : (s.setI w).loadOpen = s.loadOpen := rfl
@[simp] theorem State.setI_getV (w : Word) (z : Nibble) : (s.setI w).getV z = s.getV z := rfl
@[simp] theorem State.setI_getKey (w : Word) (z : Nibble) : (s.setI w).getKey z = s.getKey z := rfl
@[simp] theorem State.setI_byteAt (w : Word) (a : Nat) : (s.setI w).byteAt a = s.byteAt a := rfl
@[simp] theorem State.setI_cell (w : Word) (c : Nat) : (s.setI w).cell c = s.cell c := rfl

/-! `setPc` -/
@[simp] theorem State.setPc_v (w : Word) : (s.setPc w).v = s.v := rfl
@[simp] theorem State.setPc_i (w : Word) : (s.setPc w).i = s.i := rfl
@[simp] theorem State.setPc_pc (w : Word) : (s.setPc w).pc = w := rfl
@[simp] theorem State.setPc_sp (w : Word) : (s.setPc w).sp = s.sp := rfl
@[simp] theorem State.setPc_stack (w : Word) : (s.setPc w).stack = s.stack := rfl
@[simp] theorem State.setPc_mem (w : Word) : (s.setPc w).mem = s.mem := rfl
@[simp] theorem State.setPc_fb (w : Word) : (s.setPc w).fb = s.fb := rfl
@[simp] theorem State.setPc_dt (w : Word) : (s.setPc w).dt = s.dt := rfl
@[simp] theorem State.setPc_key (w : Word) : (s.setPc w).key = s.key := rfl
@[simp] theorem State.setPc_run (w : Word) : (s.setPc w).run = s.run := rfl
@[simp] theorem State.setPc_agenda (w : Word) : (s.setPc w).agenda = s.agenda := rfl
@[simp] theorem State.setPc_draw (w : Word) : (s.setPc w).draw = s.draw := rfl
@[simp] theorem State.setPc_drawCount (w : Word) : (s.setPc w).drawCount = s.drawCount := rfl
@[simp] theorem State.setPc_report (w : Word) : (s.setPc w).report = s.report := rfl
@[simp] theorem State.setPc_loadOpen (w : Word) : (s.setPc w).loadOpen = s.loadOpen := rfl
@[simp] theorem State.setPc_getV (w : Word) (z : Nibble) : (s.setPc w).getV z = s.getV z := rfl
@[simp] theorem State.setPc_getKey (w : Word) (z : Nibble) : (s.setPc w).getKey z = s.getKey z := rfl
@[simp] theorem State.setPc_byteAt (w : Word) (a : Nat) : (s.setPc w).byteAt a = s.byteAt a := rfl
@[simp] theorem State.setPc_cell (w : Word) (c : Nat) : (s.setPc w).cell c = s.cell c := rfl

/-! `setStack` -/
@[simp] theorem State.setStack_v (n : Fin 17) (st : Vector Word 16) : (s.setStack n st).v = s.v := rfl
@[simp] theorem State.setStack_i (n : Fin 17) (st : Vector Word 16) : (s.setStack n st).i = s.i := rfl
@[simp] theorem State.setStack_pc (n : Fin 17) (st : Vector Word 16) : (s.setStack n st).pc = s.pc := rfl
@[simp] theorem State.setStack_sp (n : Fin 17) (st : Vector Word 16) : (s.setStack n st).sp = n := rfl
@[simp] theorem State.setStack_stack (n : Fin 17) (st : Vector Word 16) : (s.setStack n st).stack = st := rfl
@[simp] theorem State.setStack_mem (n : Fin 17) (st : Vector Word 16) : (s.setStack n st).mem = s.mem := rfl
@[simp] theorem State.setStack_fb (n : Fin 17) (st : Vector Word 16) : (s.setStack n st).fb = s.fb := rfl
@[simp] theorem State.setStack_dt (n : Fin 17) (st : Vector Word 16) : (s.setStack n st).dt = s.dt := rfl
@[simp] theorem State.setStack_key (n : Fin 17) (st : Vector Word 16) : (s.setStack n st).key = s.key := rfl
@[simp] theorem State.setStack_run (n : Fin 17) (st : Vector Word 16) : (s.setStack n st).run = s.run := rfl
@[simp] theorem State.setStack_agenda (n : Fin 17) (st : Vector Word 16) : (s.setStack n st).agenda = s.agenda := rfl
@[simp] theorem State.setStack_draw (n : Fin 17) (st : Vector Word 16) : (s.setStack n st).draw = s.draw := rfl
@[simp] theorem State.setStack_drawCount (n : Fin 17) (st : Vector Word 16) : (s.setStack n st).drawCount = s.drawCount := rfl
@[simp] theorem State.setStack_report (n : Fin 17) (st : Vector Word 16) : (s.setStack n st).report = s.report := rfl
@[simp] theorem State.setStack_loadOpen (n : Fin 17) (st : Vector Word 16) : (s.setStack n st).loadOpen = s.loadOpen := rfl
@[simp] theorem State.setStack_getV (n : Fin 17) (st : Vector Word 16) (z : Nibble) : (s.setStack n st).getV z = s.getV z := rfl
@[simp] theorem State.setStack_getKey (n : Fin 17) (st : Vector Word 16) (z : Nibble) : (s.setStack n st).getKey z = s.getKey z := rfl
@[simp] theorem State.setStack_byteAt (n : Fin 17) (st : Vector Word 16) (a : Nat) : (s.setStack n st).byteAt a = s.byteAt a := rfl
@[simp] theorem State.setStack_cell (n : Fin 17) (st : Vector Word 16) (c : Nat) : (s.setStack n st).cell c = s.cell c := rfl

/-! `setMem` -/
@[simp] theorem State.setMem_v (m : List Host.Cell) : (s.setMem m).v = s.v := rfl
@[simp] theorem State.setMem_i (m : List Host.Cell) : (s.setMem m).i = s.i := rfl
@[simp] theorem State.setMem_pc (m : List Host.Cell) : (s.setMem m).pc = s.pc := rfl
@[simp] theorem State.setMem_sp (m : List Host.Cell) : (s.setMem m).sp = s.sp := rfl
@[simp] theorem State.setMem_stack (m : List Host.Cell) : (s.setMem m).stack = s.stack := rfl
@[simp] theorem State.setMem_mem (m : List Host.Cell) : (s.setMem m).mem = m := rfl
@[simp] theorem State.setMem_fb (m : List Host.Cell) : (s.setMem m).fb = s.fb := rfl
@[simp] theorem State.setMem_dt (m : List Host.Cell) : (s.setMem m).dt = s.dt := rfl
@[simp] theorem State.setMem_key (m : List Host.Cell) : (s.setMem m).key = s.key := rfl
@[simp] theorem State.setMem_run (m : List Host.Cell) : (s.setMem m).run = s.run := rfl
@[simp] theorem State.setMem_agenda (m : List Host.Cell) : (s.setMem m).agenda = s.agenda := rfl
@[simp] theorem State.setMem_draw (m : List Host.Cell) : (s.setMem m).draw = s.draw := rfl
@[simp] theorem State.setMem_drawCount (m : List Host.Cell) : (s.setMem m).drawCount = s.drawCount := rfl
@[simp] theorem State.setMem_report (m : List Host.Cell) : (s.setMem m).report = s.report := rfl
@[simp] theorem State.setMem_loadOpen (m : List Host.Cell) : (s.setMem m).loadOpen = s.loadOpen := rfl
@[simp] theorem State.setMem_getV (m : List Host.Cell) (z : Nibble) : (s.setMem m).getV z = s.getV z := rfl
@[simp] theorem State.setMem_getKey (m : List Host.Cell) (z : Nibble) : (s.setMem m).getKey z = s.getKey z := rfl
@[simp] theorem State.setMem_cell (m : List Host.Cell) (c : Nat) : (s.setMem m).cell c = s.cell c := rfl

/-! `setFb` -/
@[simp] theorem State.setFb_v (f : Vector (BitVec 64) 32) : (s.setFb f).v = s.v := rfl
@[simp] theorem State.setFb_i (f : Vector (BitVec 64) 32) : (s.setFb f).i = s.i := rfl
@[simp] theorem State.setFb_pc (f : Vector (BitVec 64) 32) : (s.setFb f).pc = s.pc := rfl
@[simp] theorem State.setFb_sp (f : Vector (BitVec 64) 32) : (s.setFb f).sp = s.sp := rfl
@[simp] theorem State.setFb_stack (f : Vector (BitVec 64) 32) : (s.setFb f).stack = s.stack := rfl
@[simp] theorem State.setFb_mem (f : Vector (BitVec 64) 32) : (s.setFb f).mem = s.mem := rfl
@[simp] theorem State.setFb_fb (f : Vector (BitVec 64) 32) : (s.setFb f).fb = f := rfl
@[simp] theorem State.setFb_dt (f : Vector (BitVec 64) 32) : (s.setFb f).dt = s.dt := rfl
@[simp] theorem State.setFb_key (f : Vector (BitVec 64) 32) : (s.setFb f).key = s.key := rfl
@[simp] theorem State.setFb_run (f : Vector (BitVec 64) 32) : (s.setFb f).run = s.run := rfl
@[simp] theorem State.setFb_agenda (f : Vector (BitVec 64) 32) : (s.setFb f).agenda = s.agenda := rfl
@[simp] theorem State.setFb_draw (f : Vector (BitVec 64) 32) : (s.setFb f).draw = s.draw := rfl
@[simp] theorem State.setFb_drawCount (f : Vector (BitVec 64) 32) : (s.setFb f).drawCount = s.drawCount := rfl
@[simp] theorem State.setFb_report (f : Vector (BitVec 64) 32) : (s.setFb f).report = s.report := rfl
@[simp] theorem State.setFb_loadOpen (f : Vector (BitVec 64) 32) : (s.setFb f).loadOpen = s.loadOpen := rfl
@[simp] theorem State.setFb_getV (f : Vector (BitVec 64) 32) (z : Nibble) : (s.setFb f).getV z = s.getV z := rfl
@[simp] theorem State.setFb_getKey (f : Vector (BitVec 64) 32) (z : Nibble) : (s.setFb f).getKey z = s.getKey z := rfl
@[simp] theorem State.setFb_byteAt (f : Vector (BitVec 64) 32) (a : Nat) : (s.setFb f).byteAt a = s.byteAt a := rfl

/-! `setDt` -/
@[simp] theorem State.setDt_v (b : Byte) : (s.setDt b).v = s.v := rfl
@[simp] theorem State.setDt_i (b : Byte) : (s.setDt b).i = s.i := rfl
@[simp] theorem State.setDt_pc (b : Byte) : (s.setDt b).pc = s.pc := rfl
@[simp] theorem State.setDt_sp (b : Byte) : (s.setDt b).sp = s.sp := rfl
@[simp] theorem State.setDt_stack (b : Byte) : (s.setDt b).stack = s.stack := rfl
@[simp] theorem State.setDt_mem (b : Byte) : (s.setDt b).mem = s.mem := rfl
@[simp] theorem State.setDt_fb (b : Byte) : (s.setDt b).fb = s.fb := rfl
@[simp] theorem State.setDt_dt (b : Byte) : (s.setDt b).dt = b := rfl
@[simp] theorem State.setDt_key (b : Byte) : (s.setDt b).key = s.key := rfl
@[simp] theorem State.setDt_run (b : Byte) : (s.setDt b).run = s.run := rfl
@[simp] theorem State.setDt_agenda (b : Byte) : (s.setDt b).agenda = s.agenda := rfl
@[simp] theorem State.setDt_draw (b : Byte) : (s.setDt b).draw = s.draw := rfl
@[simp] theorem State.setDt_drawCount (b : Byte) : (s.setDt b).drawCount = s.drawCount := rfl
@[simp] theorem State.setDt_report (b : Byte) : (s.setDt b).report = s.report := rfl
@[simp] theorem State.setDt_loadOpen (b : Byte) : (s.setDt b).loadOpen = s.loadOpen := rfl
@[simp] theorem State.setDt_getV (b : Byte) (z : Nibble) : (s.setDt b).getV z = s.getV z := rfl
@[simp] theorem State.setDt_getKey (b : Byte) (z : Nibble) : (s.setDt b).getKey z = s.getKey z := rfl
@[simp] theorem State.setDt_byteAt (b : Byte) (a : Nat) : (s.setDt b).byteAt a = s.byteAt a := rfl
@[simp] theorem State.setDt_cell (b : Byte) (c : Nat) : (s.setDt b).cell c = s.cell c := rfl

/-! `setKey` -/
@[simp] theorem State.setKey_v (k : Nibble) (p : Bool) : (s.setKey k p).v = s.v := rfl
@[simp] theorem State.setKey_i (k : Nibble) (p : Bool) : (s.setKey k p).i = s.i := rfl
@[simp] theorem State.setKey_pc (k : Nibble) (p : Bool) : (s.setKey k p).pc = s.pc := rfl
@[simp] theorem State.setKey_sp (k : Nibble) (p : Bool) : (s.setKey k p).sp = s.sp := rfl
@[simp] theorem State.setKey_stack (k : Nibble) (p : Bool) : (s.setKey k p).stack = s.stack := rfl
@[simp] theorem State.setKey_mem (k : Nibble) (p : Bool) : (s.setKey k p).mem = s.mem := rfl
@[simp] theorem State.setKey_fb (k : Nibble) (p : Bool) : (s.setKey k p).fb = s.fb := rfl
@[simp] theorem State.setKey_dt (k : Nibble) (p : Bool) : (s.setKey k p).dt = s.dt := rfl
@[simp] theorem State.setKey_key (k : Nibble) (p : Bool) : (s.setKey k p).key = s.key.set k.toNat p k.isLt := rfl
@[simp] theorem State.setKey_run (k : Nibble) (p : Bool) : (s.setKey k p).run = s.run := rfl
@[simp] theorem State.setKey_agenda (k : Nibble) (p : Bool) : (s.setKey k p).agenda = s.agenda := rfl
@[simp] theorem State.setKey_draw (k : Nibble) (p : Bool) : (s.setKey k p).draw = s.draw := rfl
@[simp] theorem State.setKey_drawCount (k : Nibble) (p : Bool) : (s.setKey k p).drawCount = s.drawCount := rfl
@[simp] theorem State.setKey_report (k : Nibble) (p : Bool) : (s.setKey k p).report = s.report := rfl
@[simp] theorem State.setKey_loadOpen (k : Nibble) (p : Bool) : (s.setKey k p).loadOpen = s.loadOpen := rfl
@[simp] theorem State.setKey_getV (k : Nibble) (p : Bool) (z : Nibble) : (s.setKey k p).getV z = s.getV z := rfl
@[simp] theorem State.setKey_byteAt (k : Nibble) (p : Bool) (a : Nat) : (s.setKey k p).byteAt a = s.byteAt a := rfl
@[simp] theorem State.setKey_cell (k : Nibble) (p : Bool) (c : Nat) : (s.setKey k p).cell c = s.cell c := rfl

/-! `setRun` -/
@[simp] theorem State.setRun_v (r : RunState) : (s.setRun r).v = s.v := rfl
@[simp] theorem State.setRun_i (r : RunState) : (s.setRun r).i = s.i := rfl
@[simp] theorem State.setRun_pc (r : RunState) : (s.setRun r).pc = s.pc := rfl
@[simp] theorem State.setRun_sp (r : RunState) : (s.setRun r).sp = s.sp := rfl
@[simp] theorem State.setRun_stack (r : RunState) : (s.setRun r).stack = s.stack := rfl
@[simp] theorem State.setRun_mem (r : RunState) : (s.setRun r).mem = s.mem := rfl
@[simp] theorem State.setRun_fb (r : RunState) : (s.setRun r).fb = s.fb := rfl
@[simp] theorem State.setRun_dt (r : RunState) : (s.setRun r).dt = s.dt := rfl
@[simp] theorem State.setRun_key (r : RunState) : (s.setRun r).key = s.key := rfl
@[simp] theorem State.setRun_run (r : RunState) : (s.setRun r).run = r := rfl
@[simp] theorem State.setRun_agenda (r : RunState) : (s.setRun r).agenda = s.agenda := rfl
@[simp] theorem State.setRun_draw (r : RunState) : (s.setRun r).draw = s.draw := rfl
@[simp] theorem State.setRun_drawCount (r : RunState) : (s.setRun r).drawCount = s.drawCount := rfl
@[simp] theorem State.setRun_report (r : RunState) : (s.setRun r).report = s.report := rfl
@[simp] theorem State.setRun_loadOpen (r : RunState) : (s.setRun r).loadOpen = s.loadOpen := rfl
@[simp] theorem State.setRun_getV (r : RunState) (z : Nibble) : (s.setRun r).getV z = s.getV z := rfl
@[simp] theorem State.setRun_getKey (r : RunState) (z : Nibble) : (s.setRun r).getKey z = s.getKey z := rfl
@[simp] theorem State.setRun_byteAt (r : RunState) (a : Nat) : (s.setRun r).byteAt a = s.byteAt a := rfl
@[simp] theorem State.setRun_cell (r : RunState) (c : Nat) : (s.setRun r).cell c = s.cell c := rfl

/-! `setReport` -/
@[simp] theorem State.setReport_v (r : Option Report) : (s.setReport r).v = s.v := rfl
@[simp] theorem State.setReport_i (r : Option Report) : (s.setReport r).i = s.i := rfl
@[simp] theorem State.setReport_pc (r : Option Report) : (s.setReport r).pc = s.pc := rfl
@[simp] theorem State.setReport_sp (r : Option Report) : (s.setReport r).sp = s.sp := rfl
@[simp] theorem State.setReport_stack (r : Option Report) : (s.setReport r).stack = s.stack := rfl
@[simp] theorem State.setReport_mem (r : Option Report) : (s.setReport r).mem = s.mem := rfl
@[simp] theorem State.setReport_fb (r : Option Report) : (s.setReport r).fb = s.fb := rfl
@[simp] theorem State.setReport_dt (r : Option Report) : (s.setReport r).dt = s.dt := rfl
@[simp] theorem State.setReport_key (r : Option Report) : (s.setReport r).key = s.key := rfl
@[simp] theorem State.setReport_run (r : Option Report) : (s.setReport r).run = s.run := rfl
@[simp] theorem State.setReport_agenda (r : Option Report) : (s.setReport r).agenda = s.agenda := rfl
@[simp] theorem State.setReport_draw (r : Option Report) : (s.setReport r).draw = s.draw := rfl
@[simp] theorem State.setReport_drawCount (r : Option Report) : (s.setReport r).drawCount = s.drawCount := rfl
@[simp] theorem State.setReport_report (r : Option Report) : (s.setReport r).report = r := rfl
@[simp] theorem State.setReport_loadOpen (r : Option Report) : (s.setReport r).loadOpen = s.loadOpen := rfl
@[simp] theorem State.setReport_getV (r : Option Report) (z : Nibble) : (s.setReport r).getV z = s.getV z := rfl
@[simp] theorem State.setReport_getKey (r : Option Report) (z : Nibble) : (s.setReport r).getKey z = s.getKey z := rfl
@[simp] theorem State.setReport_byteAt (r : Option Report) (a : Nat) : (s.setReport r).byteAt a = s.byteAt a := rfl
@[simp] theorem State.setReport_cell (r : Option Report) (c : Nat) : (s.setReport r).cell c = s.cell c := rfl

/-! `spendDraw` -/
@[simp] theorem State.spendDraw_v : s.spendDraw.v = s.v := rfl
@[simp] theorem State.spendDraw_i : s.spendDraw.i = s.i := rfl
@[simp] theorem State.spendDraw_pc : s.spendDraw.pc = s.pc := rfl
@[simp] theorem State.spendDraw_sp : s.spendDraw.sp = s.sp := rfl
@[simp] theorem State.spendDraw_stack : s.spendDraw.stack = s.stack := rfl
@[simp] theorem State.spendDraw_mem : s.spendDraw.mem = s.mem := rfl
@[simp] theorem State.spendDraw_fb : s.spendDraw.fb = s.fb := rfl
@[simp] theorem State.spendDraw_dt : s.spendDraw.dt = s.dt := rfl
@[simp] theorem State.spendDraw_key : s.spendDraw.key = s.key := rfl
@[simp] theorem State.spendDraw_run : s.spendDraw.run = s.run := rfl
@[simp] theorem State.spendDraw_agenda : s.spendDraw.agenda = s.agenda := rfl
@[simp] theorem State.spendDraw_draw : s.spendDraw.draw = s.draw := rfl
@[simp] theorem State.spendDraw_drawCount : s.spendDraw.drawCount = s.drawCount + 1 := rfl
@[simp] theorem State.spendDraw_report : s.spendDraw.report = s.report := rfl
@[simp] theorem State.spendDraw_loadOpen : s.spendDraw.loadOpen = s.loadOpen := rfl
@[simp] theorem State.spendDraw_getV (z : Nibble) : s.spendDraw.getV z = s.getV z := rfl
@[simp] theorem State.spendDraw_getKey (z : Nibble) : s.spendDraw.getKey z = s.getKey z := rfl
@[simp] theorem State.spendDraw_byteAt (a : Nat) : s.spendDraw.byteAt a = s.byteAt a := rfl
@[simp] theorem State.spendDraw_cell (c : Nat) : s.spendDraw.cell c = s.cell c := rfl

/-! Reads of what was written -/

theorem State.setV_getV (x z : Nibble) (b : Byte) : (s.setV x b).getV z = if z = x then b else s.getV z := by
  unfold State.setV State.getV
  by_cases h : z = x
  · subst h; simp
  · have hn : x.toNat ≠ z.toNat := fun e => h (BitVec.eq_of_toNat_eq e.symm)
    simp [h, Vector.getElem_set_ne (h := hn)]

@[simp] theorem State.setV_getV_same (x : Nibble) (b : Byte) : (s.setV x b).getV x = b := by simp [State.setV_getV]

@[simp] theorem State.setV_getV_ne {x z : Nibble} (h : z ≠ x) (b : Byte) : (s.setV x b).getV z = s.getV z := by
  simp [State.setV_getV, h]

theorem State.setKey_getKey (k z : Nibble) (p : Bool) : (s.setKey k p).getKey z = if z = k then p else s.getKey z := by
  unfold State.setKey State.getKey
  by_cases h : z = k
  · subst h; simp
  · have hn : k.toNat ≠ z.toNat := fun e => h (BitVec.eq_of_toNat_eq e.symm)
    simp [h, Vector.getElem_set_ne (h := hn)]

@[simp] theorem State.setMem_byteAt (m : List Host.Cell) (a : Nat) : (s.setMem m).byteAt a = Memory.get m a := rfl

@[simp] theorem State.setFb_cell (f : Vector (BitVec 64) 32) (c : Nat) : (s.setFb f).cell c = fbCell f c := rfl

/-- Two register files that read the same everywhere are the same. -/
theorem v_eq_of_getV {s t : State} (h : ∀ z, t.getV z = s.getV z) : t.v = s.v := by
  apply Vector.ext
  intro k hk
  have := h (BitVec.ofNat 4 k)
  simpa [State.getV, Nat.mod_eq_of_lt hk] using this

end Sys2Proof.Machine
end

