-- ==== Sys2Proof/Laws/Memory.lean ====
section
/-! SUPPORT. The memory laws: a read after a write to the same place gives the value written, a write leaves every other
place alone, every memory operation keeps the canonical form, and two canonical memories that read the same are equal. -/

namespace Sys2Proof.Machine

/-! ### Reading after writing -/

@[simp] theorem Memory.find_erase_same (m : List Host.Cell) (a : Nat) : Memory.find (Memory.erase m a) a = none := by
  induction m with
  | nil => rfl
  | cons c rest ih =>
    obtain ⟨b, v⟩ := c
    by_cases h : b = a <;> simp [Memory.erase, Memory.find, h, ih]

theorem Memory.find_erase_ne (m : List Host.Cell) {a b : Nat} (h : b ≠ a) :
    Memory.find (Memory.erase m a) b = Memory.find m b := by
  induction m with
  | nil => rfl
  | cons c rest ih =>
    obtain ⟨d, v⟩ := c
    by_cases hd : d = a
    · subst hd; simp [Memory.erase, Memory.find, ih, Ne.symm h]
    · simp [Memory.erase, Memory.find, hd, ih]

@[simp] theorem Memory.find_insert_same (m : List Host.Cell) (a : Nat) (v : Byte) :
    Memory.find (Memory.insert m a v) a = some v := by
  induction m with
  | nil => simp [Memory.insert, Memory.find]
  | cons c rest ih =>
    obtain ⟨b, u⟩ := c
    simp only [Memory.insert]
    split
    · next h => simp [Memory.find, Nat.ne_of_lt h, ih]
    · split <;> simp [Memory.find]

theorem Memory.find_insert_ne (m : List Host.Cell) {a b : Nat} (v : Byte) (h : b ≠ a) :
    Memory.find (Memory.insert m a v) b = Memory.find m b := by
  induction m with
  | nil => simp [Memory.insert, Memory.find, Ne.symm h]
  | cons c rest ih =>
    obtain ⟨d, u⟩ := c
    simp only [Memory.insert]
    split
    · simp [Memory.find, ih]
    · split
      · next _ hd => subst hd; simp [Memory.find, Ne.symm h]
      · simp [Memory.find, Ne.symm h]

@[simp] theorem Memory.get_put_same (m : List Host.Cell) (a : Nat) (v : Byte) : Memory.get (Memory.put m a v) a = v := by
  unfold Memory.put Memory.get
  split
  · next h => simp [h]
  · simp

theorem Memory.get_put_ne (m : List Host.Cell) {a b : Nat} (v : Byte) (h : b ≠ a) :
    Memory.get (Memory.put m a v) b = Memory.get m b := by
  unfold Memory.put Memory.get
  split
  · rw [Memory.find_erase_ne m h]
  · rw [Memory.find_insert_ne m v h]

theorem Memory.get_put (m : List Host.Cell) (a b : Nat) (v : Byte) :
    Memory.get (Memory.put m a v) b = if b = a then v else Memory.get m b := by
  split
  · next h => subst h; simp
  · next h => exact Memory.get_put_ne m v h

/-! ### The canonical form -/

/-- What one cell of a canonical memory satisfies, and the rest after it. -/
theorem Memory.wfFrom_cons (lo a : Nat) (v : Byte) (rest : List Host.Cell) :
    Memory.wfFrom lo ((a, v) :: rest) = true ↔
      lo ≤ a ∧ a < 4096 ∧ v ≠ Memory.initial a ∧ Memory.wfFrom (a + 1) rest = true := by
  simp [Memory.wfFrom, and_assoc]

theorem Memory.wfFrom_mono {lo lo' : Nat} {m : List Host.Cell} (h : Memory.wfFrom lo m = true) (hl : lo' ≤ lo) :
    Memory.wfFrom lo' m = true := by
  cases m with
  | nil => rfl
  | cons c rest =>
    obtain ⟨a, v⟩ := c
    rw [Memory.wfFrom_cons] at h ⊢
    exact ⟨by omega, h.2⟩

theorem Memory.wfFrom_erase {lo : Nat} {m : List Host.Cell} (h : Memory.wfFrom lo m = true) (a : Nat) :
    Memory.wfFrom lo (Memory.erase m a) = true := by
  induction m generalizing lo with
  | nil => rfl
  | cons c rest ih =>
    obtain ⟨b, v⟩ := c
    rw [Memory.wfFrom_cons] at h
    obtain ⟨h1, h2, h3, h4⟩ := h
    simp only [Memory.erase]
    split
    · exact ih (Memory.wfFrom_mono h4 (by omega))
    · exact (Memory.wfFrom_cons _ _ _ _).2 ⟨h1, h2, h3, ih h4⟩

theorem Memory.wfFrom_insert {lo a : Nat} {v : Byte} {m : List Host.Cell} (h : Memory.wfFrom lo m = true) (hl : lo ≤ a)
    (ha : a < 4096) (hv : v ≠ Memory.initial a) : Memory.wfFrom lo (Memory.insert m a v) = true := by
  induction m generalizing lo with
  | nil => exact (Memory.wfFrom_cons _ _ _ _).2 ⟨hl, ha, hv, rfl⟩
  | cons c rest ih =>
    obtain ⟨b, u⟩ := c
    have h' := (Memory.wfFrom_cons _ _ _ _).1 h
    obtain ⟨h1, h2, h3, h4⟩ := h'
    simp only [Memory.insert]
    split
    · exact (Memory.wfFrom_cons _ _ _ _).2 ⟨h1, h2, h3, ih h4 (by omega)⟩
    · split
      · next _ hb => subst hb; exact (Memory.wfFrom_cons _ _ _ _).2 ⟨hl, ha, hv, h4⟩
      · exact (Memory.wfFrom_cons _ _ _ _).2
          ⟨hl, ha, hv, (Memory.wfFrom_cons _ _ _ _).2 ⟨by omega, h2, h3, h4⟩⟩

/-- A write keeps the canonical form. -/
theorem Memory.put_wf {m : List Host.Cell} (h : Memory.wf m = true) {a : Nat} (ha : a < 4096) (v : Byte) :
    Memory.wf (Memory.put m a v) = true := by
  unfold Memory.put
  split
  · exact Memory.wfFrom_erase h a
  · next hv => exact Memory.wfFrom_insert h (Nat.zero_le a) ha hv

/-- The memory right after RESET is canonical. -/
theorem Memory.reset_wf : Memory.wf State.reset.mem = true := rfl

theorem Memory.find_lt {lo a : Nat} {m : List Host.Cell} (h : Memory.wfFrom lo m = true) (ha : a < lo) :
    Memory.find m a = none := by
  induction m generalizing lo with
  | nil => rfl
  | cons c rest ih =>
    obtain ⟨b, v⟩ := c
    rw [Memory.wfFrom_cons] at h
    have hb : b ≠ a := by omega
    simp only [Memory.find, hb, if_false]
    exact ih h.2.2.2 (by omega)

theorem Memory.find_ne_initial {lo a : Nat} {m : List Host.Cell} (h : Memory.wfFrom lo m = true) {v : Byte}
    (hv : Memory.find m a = some v) : v ≠ Memory.initial a := by
  induction m generalizing lo with
  | nil => simp [Memory.find] at hv
  | cons c rest ih =>
    obtain ⟨b, u⟩ := c
    rw [Memory.wfFrom_cons] at h
    simp only [Memory.find] at hv
    split at hv
    · next hb => subst hb; cases hv; exact h.2.2.1
    · exact ih h.2.2.2 hv

/-- On canonical memories, what an address reads as determines what is listed for it. -/
theorem Memory.find_eq_of_get_eq {m m' : List Host.Cell} (h : Memory.wf m = true) (h' : Memory.wf m' = true) {a : Nat}
    (e : Memory.get m a = Memory.get m' a) : Memory.find m a = Memory.find m' a := by
  unfold Memory.get at e
  cases hm : Memory.find m a with
  | none =>
    cases hm' : Memory.find m' a with
    | none => rfl
    | some v => exact absurd (by simpa [hm, hm'] using e.symm) (Memory.find_ne_initial h' hm')
  | some u =>
    cases hm' : Memory.find m' a with
    | none => exact absurd (by simpa [hm, hm'] using e) (Memory.find_ne_initial h hm)
    | some v => simpa [hm, hm'] using e

theorem Memory.eq_of_find_eq {lo : Nat} {m m' : List Host.Cell} (h : Memory.wfFrom lo m = true)
    (h' : Memory.wfFrom lo m' = true) (e : ∀ a, Memory.find m a = Memory.find m' a) : m = m' := by
  induction m generalizing lo m' with
  | nil =>
    cases m' with
    | nil => rfl
    | cons c rest => obtain ⟨b, v⟩ := c; simpa [Memory.find] using e b
  | cons c rest ih =>
    obtain ⟨a, v⟩ := c
    cases m' with
    | nil => simpa [Memory.find] using e a
    | cons c' rest' =>
      obtain ⟨b, u⟩ := c'
      rw [Memory.wfFrom_cons] at h h'
      have hab : a = b := by
        rcases Nat.lt_trichotomy a b with hlt | heq | hgt
        · have := e a
          simp [Memory.find, Nat.ne_of_gt hlt, Memory.find_lt h'.2.2.2 (by omega : a < b + 1)] at this
        · exact heq
        · have := e b
          simp [Memory.find, Nat.ne_of_gt hgt, Memory.find_lt h.2.2.2 (by omega : b < a + 1)] at this
      subst hab
      have hv : v = u := by simpa [Memory.find] using e a
      subst hv
      congr 1
      refine ih h.2.2.2 h'.2.2.2 fun d => ?_
      by_cases hd : a = d
      · subst hd; rw [Memory.find_lt h.2.2.2 (by omega), Memory.find_lt h'.2.2.2 (by omega)]
      · simpa [Memory.find, hd] using e d

/-- Two canonical memories that read the same at every address are the same list. -/
theorem Memory.ext_get {m m' : List Host.Cell} (h : Memory.wf m = true) (h' : Memory.wf m' = true)
    (e : ∀ a, Memory.get m a = Memory.get m' a) : m = m' :=
  Memory.eq_of_find_eq h h' fun a => Memory.find_eq_of_get_eq h h' (e a)

/-- Writing back what an address reads as changes nothing. -/
theorem Memory.put_get {m : List Host.Cell} (h : Memory.wf m = true) {a : Nat} (ha : a < 4096) :
    Memory.put m a (Memory.get m a) = m := by
  refine Memory.ext_get (Memory.put_wf h ha _) h fun b => ?_
  rw [Memory.get_put]
  split
  · next hb => rw [hb]
  · rfl

end Sys2Proof.Machine
end

