-- ==== Sys2Proof/Laws/Ops.lean ====
section
/-! SUPPORT. One lemma per shared operation that says everything it can do, so that no proof unfolds it again. -/

namespace Sys2Proof.Machine

/-! ### Memory accesses -/

theorem memRead_eq (a : Nat) (s : State) :
    memRead a s = if a < 4096 then .ok (s.byteAt a) else .error .outOfBounds := rfl

theorem memWrite_eq (a : Nat) (v : Byte) (s : State) :
    memWrite a v s = if a < 4096 then .ok (s.setMem (Memory.put s.mem a v)) else .error .outOfBounds := rfl

/-- `readRange` gives the bytes of the range where all of it is in memory (or it is empty), and else halts. -/
theorem readRange_eq (a n : Nat) (s : State) :
    readRange a n s = if n = 0 ∨ a + n ≤ 4096 then .ok ((List.range n).map fun k => s.byteAt (a + k))
      else .error .outOfBounds := by
  induction n generalizing a with
  | zero => simp [readRange]
  | succ n ih =>
    simp only [readRange, memRead_eq, ih]
    by_cases h : a < 4096
    · by_cases hn : n = 0 ∨ a + 1 + n ≤ 4096
      · have : a + (n + 1) ≤ 4096 := by omega
        simp only [h, hn, this, if_true, or_true, List.range_succ_eq_map, List.map_cons, List.map_map]
        congr 3
        funext k
        simp only [Function.comp_apply]
        congr 1
        omega
      · rw [if_pos h, if_neg hn, if_neg (by omega)]
    · have : ¬ (n + 1 = 0 ∨ a + (n + 1) ≤ 4096) := by omega
      rw [if_neg h, if_neg this]

/-- `writeRange` where all of the range is in memory (or it is empty): the bytes of the range are the ones given, every
other byte is unchanged, nothing but memory changes, and memory stays canonical. -/
theorem writeRange_ok {a : Nat} {bs : List Byte} {s : State} (h : bs = [] ∨ a + bs.length ≤ 4096) :
    ∃ m, writeRange a bs s = .ok (s.setMem m) ∧
      (∀ b, Memory.get m b = if a ≤ b ∧ b < a + bs.length then bs.getD (b - a) 0 else s.byteAt b) ∧
      (Memory.wf s.mem = true → Memory.wf m = true) := by
  induction bs generalizing a s with
  | nil =>
    refine ⟨s.mem, rfl, fun b => ?_, id⟩
    rw [if_neg (by simp)]
    rfl
  | cons x xs ih =>
    have ha : a < 4096 := by simp at h; omega
    obtain ⟨m, h1, h2, h3⟩ := ih (a := a + 1) (s := s.setMem (Memory.put s.mem a x))
      (by right; simp at h; omega)
    refine ⟨m, by simp only [writeRange, memWrite_eq, ha, if_true, h1]; rfl, fun b => ?_,
      fun hw => h3 (Memory.put_wf hw ha x)⟩
    rw [h2 b]
    simp only [State.setMem_byteAt, Memory.get_put, List.length_cons]
    by_cases hb : b = a
    · subst hb; simp
    · by_cases hr : a + 1 ≤ b ∧ b < a + 1 + xs.length
      · have hr' : a ≤ b ∧ b < a + (xs.length + 1) := by omega
        have hs : b - a = (b - (a + 1)) + 1 := by omega
        simp [hr, hr', hs]
      · have hr' : ¬ (a ≤ b ∧ b < a + (xs.length + 1)) := by omega
        rw [if_neg hr, if_neg hr', if_neg hb]
        rfl

/-- `writeRange` where part of the range is outside memory halts. -/
theorem writeRange_error {a : Nat} {bs : List Byte} {s : State} (h : bs ≠ []) (h' : 4096 < a + bs.length) :
    writeRange a bs s = .error .outOfBounds := by
  induction bs generalizing a s with
  | nil => exact absurd rfl h
  | cons x xs ih =>
    simp only [writeRange, memWrite_eq]
    by_cases ha : a < 4096
    · simp only [ha, if_true]
      refine ih ?_ (by simp at h'; omega)
      rintro rfl
      simp at h'
      omega
    · simp [ha]

/-! ### The call stack -/

theorem push_ok {w : Word} {s : State} (h : s.sp.val < 16) :
    push w s = .ok (s.setStack ⟨s.sp.val + 1, by omega⟩ (s.stack.set s.sp.val w h)) := by simp [push, h]

theorem push_error {w : Word} {s : State} (h : s.sp.val = 16) : push w s = .error .stackOverflow := by simp [push, h]

theorem pop_ok {s : State} (h : 0 < s.sp.val) :
    pop s = .ok (s.stack[s.sp.val - 1]'(by omega), s.setStack ⟨s.sp.val - 1, by omega⟩ s.stack) := by simp [pop, h]

theorem pop_error {s : State} (h : s.sp.val = 0) : pop s = .error .stackUnderflow := by simp [pop, h]

/-! ### Halts and the program counter -/

@[simp] theorem finish_ok (s t : State) : finish s (.ok t) = .next t := rfl

@[simp] theorem finish_error (s : State) (r : HaltReason) : finish s (.error r) = .next (takeHalt r s) := rfl

/-- Whatever the execute phase did, the instruction answers a next state: the one it led to, or the state before with the
halt taken. -/
theorem finish_cases (s : State) (r : Except HaltReason State) :
    (∃ t, r = .ok t ∧ finish s r = .next t) ∨ (∃ e, r = .error e ∧ finish s r = .next (takeHalt e s)) := by
  cases r with
  | ok t => exact .inl ⟨t, rfl, rfl⟩
  | error e => exact .inr ⟨e, rfl, rfl⟩

/-- A taken halt is precise: `run` alone changes. -/
theorem takeHalt_halts (r : HaltReason) (s : State) : HaltsWith r s (.next (takeHalt r s)) := by
  refine ⟨takeHalt r s, rfl, rfl, fun p hp => ?_⟩
  cases p <;> first | exact absurd (List.mem_singleton.2 rfl) hp | simp [Unchanged, takeHalt]

theorem State.nextPc_toNat (s : State) : s.nextPc.toNat = (s.pc.toNat + 2) % 65536 := by
  simp [State.nextPc, Config.instrBytes]

theorem advance_advances (s : State) : Advances 2 s (advance s) := by
  simp [Advances, advance, State.nextPc_toNat]

theorem skipIf_eq (c : Bool) (s : State) : skipIf c s = s.setPc (s.pc + if c then 4 else 2) := by
  cases c
  · rfl
  · simp only [skipIf, State.nextPc, if_true, Config.instrBytes, Config.skipBytes, BitVec.add_assoc]; rfl

theorem skipIf_advances (c : Bool) (s : State) : Advances (if c then 4 else 2) s (skipIf c s) := by
  rw [skipIf_eq]
  cases c <;> simp [Advances]

/-! ### Operands -/

theorem keyOperand_eq (x : Nibble) (s : State) :
    keyOperand x s = if (s.getV x).toNat < 16 then .ok ((s.getV x).setWidth 4) else .error .invalidKey := rfl

theorem registerRange_length (x : Nibble) (s : State) : (registerRange x s).length = x.toNat + 1 := by
  have := x.isLt
  simp [registerRange, rangeLength]
  omega

theorem registerRange_getD (x : Nibble) (s : State) {k : Nat} (h : k ≤ x.toNat) :
    (registerRange x s).getD k 0 = s.getV (BitVec.ofNat 4 k) := by
  have hx := x.isLt
  have hk : k < 16 := by omega
  have hm : k % 16 = k := Nat.mod_eq_of_lt hk
  simp [registerRange, rangeLength, State.getV, hm, hk, show k < x.toNat + 1 by omega]

theorem bcdDigits_length (b : Byte) : (bcdDigits b).length = 3 := rfl

/-- `setRegisters` changes registers only: those from `j` on take the bytes, as far as there are both. -/
theorem setRegisters_spec (j : Nat) (bs : List Byte) (s : State) :
    (∃ v, setRegisters j bs s = { s with v := v }) ∧
      ∀ z : Nibble, (setRegisters j bs s).getV z =
        if j ≤ z.toNat ∧ z.toNat < j + bs.length then bs.getD (z.toNat - j) 0 else s.getV z := by
  induction bs generalizing j s with
  | nil =>
    refine ⟨⟨s.v, rfl⟩, fun z => ?_⟩
    rw [if_neg (by simp)]
    rfl
  | cons b bs ih =>
    obtain ⟨⟨v, hv⟩, hg⟩ := ih (j + 1) (if j < 16 then s.setV (BitVec.ofNat 4 j) b else s)
    constructor
    · refine ⟨v, ?_⟩
      rw [setRegisters, hv]
      split <;> simp [State.setV]
    · intro z
      have hz := z.isLt
      rw [setRegisters, hg z]
      by_cases h1 : z.toNat = j
      · have hj : j < 16 := by omega
        have he : z = BitVec.ofNat 4 j := by rw [← h1]; simp
        rw [if_neg (by omega), if_pos hj, if_pos (by simp; omega), ← he, State.setV_getV_same, h1]
        simp
      · have hne : ¬ (j < 16 ∧ z = BitVec.ofNat 4 j) := by
          rintro ⟨hj, rfl⟩
          simp [Nat.mod_eq_of_lt hj] at h1
        by_cases h2 : j + 1 ≤ z.toNat ∧ z.toNat < j + 1 + bs.length
        · have h3 : j ≤ z.toNat ∧ z.toNat < j + (bs.length + 1) := by omega
          have h4 : z.toNat - j = (z.toNat - (j + 1)) + 1 := by omega
          simp [h2, h3, h4]
        · have h3 : ¬ (j ≤ z.toNat ∧ z.toNat < j + (bs.length + 1)) := by omega
          simp only [h2, h3, if_false, List.length_cons]
          split
          · next hj => rw [State.setV_getV_ne]; exact fun e => hne ⟨hj, e⟩
          · rfl

/-! ### Fetch, steps and events -/

/-- A fetch gives the word at `pc` exactly where both its bytes are in memory. -/
theorem fetch_eq (s : State) :
    fetch s = if s.pc.toNat + 1 < 4096 then .ok (wordAtPc s) else .error .outOfBounds := by
  simp only [fetch, memRead_eq]
  by_cases h : s.pc.toNat + 1 < 4096
  · have h' : s.pc.toNat < 4096 := by omega
    simp [h, h', wordAtPc, wordOfBytes]
  · by_cases h' : s.pc.toNat < 4096 <;> simp [h, h']

/-- Every instruction answers a next state, whatever the state. -/
theorem exec_next (i : Instr) (s : State) : ∃ t, exec i s = .next t := by
  have fin : ∀ r, ∃ t, finish s r = .next t := fun r => by
    rcases finish_cases s r with ⟨t, -, h⟩ | ⟨e, -, h⟩ <;> exact ⟨_, h⟩
  cases i <;> first | exact ⟨_, rfl⟩ | exact fin _

/-- One instruction either is not fetched, which halts, or is the one its word decodes to. -/
theorem runInstruction_cases (s : State) :
    (4096 ≤ s.pc.toNat + 1 ∧ runInstruction s = .next (takeHalt .outOfBounds s)) ∨
      (s.pc.toNat + 1 < 4096 ∧ runInstruction s = exec (decode (wordAtPc s)) s) := by
  simp only [runInstruction, fetch_eq]
  by_cases h : s.pc.toNat + 1 < 4096
  · exact .inr ⟨h, by simp [h]⟩
  · exact .inl ⟨by omega, by simp [h]⟩

/-- A STEP does nothing in a halted core and else runs one instruction. -/
theorem stepEvent_cases (rnd : Option Byte) (s : State) :
    (∃ r, s.run = .halted r ∧ stepEvent rnd s = .next (beginStep rnd s)) ∨
      (s.run = .ready ∧ stepEvent rnd s = runInstruction (beginStep rnd s)) := by
  unfold stepEvent
  cases h : s.run with
  | ready => exact .inr ⟨rfl, rfl⟩
  | halted r => exact .inl ⟨r, rfl, rfl⟩

/-- A step is a STEP with a free draw, or the event at the head of the agenda. -/
theorem step_cases (s : State) :
    (s.agenda = [] ∧ step s = stepEvent none s) ∨
      (∃ e rest, s.agenda = e :: rest ∧ step s = happen e { s with agenda := rest }) := by
  unfold step nextEvent
  cases h : s.agenda with
  | nil => exact .inl ⟨rfl, rfl⟩
  | cons e rest => exact .inr ⟨e, rest, rfl, rfl⟩

end Sys2Proof.Machine
end

