-- ==== Sys2Proof/Laws/PerInstr.lean ====
section
/-! SUPPORT. Facts about every instruction as syntax, one lemma per constructor of Instr. Family EncodingRow: the encoder
gives a listed instruction a word of its own row of spec/30_encoding.md rule R95, and the catch-all a word of no row. -/

set_option autoImplicit false

namespace Sys2Proof

theorem encodeNNN_row (op : Nibble) (nnn : Addr) : encodeNNN op nnn &&& 0xF000#16 = op ++ 0#12 := by
  apply BitVec.eq_of_getLsbD_eq
  intro i hi
  simp only [encodeNNN, BitVec.getLsbD_and, BitVec.getLsbD_append]
  interval_cases i <;> simp

theorem encodeXKK_row (op x : Nibble) (kk : Byte) : encodeXKK op x kk &&& 0xF000#16 = op ++ 0#12 := by
  apply BitVec.eq_of_getLsbD_eq
  intro i hi
  simp only [encodeXKK, BitVec.getLsbD_and, BitVec.getLsbD_append]
  interval_cases i <;> simp

theorem encodeXSS_row (op x : Nibble) (kk : Byte) : encodeXKK op x kk &&& 0xF0FF#16 = (op ++ 0#4) ++ kk := by
  apply BitVec.eq_of_getLsbD_eq
  intro i hi
  simp only [encodeXKK, BitVec.getLsbD_and, BitVec.getLsbD_append]
  interval_cases i <;> simp

theorem encodeXYN_row (op x y n : Nibble) : encodeXYN op x y n &&& 0xF000#16 = op ++ 0#12 := by
  apply BitVec.eq_of_getLsbD_eq
  intro i hi
  simp only [encodeXYN, BitVec.getLsbD_and, BitVec.getLsbD_append]
  interval_cases i <;> simp

theorem encodeXYS_row (op x y n : Nibble) : encodeXYN op x y n &&& 0xF00F#16 = (op ++ 0#8) ++ n := by
  apply BitVec.eq_of_getLsbD_eq
  intro i hi
  simp only [encodeXYN, BitVec.getLsbD_and, BitVec.getLsbD_append]
  interval_cases i <;> simp

end Sys2Proof

namespace Sys2Proof.Laws.EncodingRow

/-- The word of a well-formed instruction matches the instruction's own row of the opcode map; the catch-all's word, which
has no row, matches none. -/
def Statement (i : Instr) : Prop :=
  i.wellFormed = true →
    match i.row with
    | some r => r.matches (encode i) = true
    | none => isListed (encode i) = false

theorem cls : Statement .cls := fun _ => rfl
theorem ret : Statement .ret := fun _ => rfl
theorem jp (nnn : Addr) : Statement (.jp nnn) := fun _ => by
  simp [Instr.row, OpcodeRow.matches, encode, encodeNNN_row]
theorem call (nnn : Addr) : Statement (.call nnn) := fun _ => by
  simp [Instr.row, OpcodeRow.matches, encode, encodeNNN_row]
theorem seByte (x : Nibble) (kk : Byte) : Statement (.seByte x kk) := fun _ => by
  simp [Instr.row, OpcodeRow.matches, encode, encodeXKK_row]
theorem sneByte (x : Nibble) (kk : Byte) : Statement (.sneByte x kk) := fun _ => by
  simp [Instr.row, OpcodeRow.matches, encode, encodeXKK_row]
theorem seReg (x y : Nibble) : Statement (.seReg x y) := fun _ => by
  simp [Instr.row, OpcodeRow.matches, encode, encodeXYS_row]
theorem ldByte (x : Nibble) (kk : Byte) : Statement (.ldByte x kk) := fun _ => by
  simp [Instr.row, OpcodeRow.matches, encode, encodeXKK_row]
theorem addByte (x : Nibble) (kk : Byte) : Statement (.addByte x kk) := fun _ => by
  simp [Instr.row, OpcodeRow.matches, encode, encodeXKK_row]
theorem ldReg (x y : Nibble) : Statement (.ldReg x y) := fun _ => by
  simp [Instr.row, OpcodeRow.matches, encode, encodeXYS_row]
theorem orReg (x y : Nibble) : Statement (.orReg x y) := fun _ => by
  simp [Instr.row, OpcodeRow.matches, encode, encodeXYS_row]
theorem andReg (x y : Nibble) : Statement (.andReg x y) := fun _ => by
  simp [Instr.row, OpcodeRow.matches, encode, encodeXYS_row]
theorem xorReg (x y : Nibble) : Statement (.xorReg x y) := fun _ => by
  simp [Instr.row, OpcodeRow.matches, encode, encodeXYS_row]
theorem addReg (x y : Nibble) : Statement (.addReg x y) := fun _ => by
  simp [Instr.row, OpcodeRow.matches, encode, encodeXYS_row]
theorem subReg (x y : Nibble) : Statement (.subReg x y) := fun _ => by
  simp [Instr.row, OpcodeRow.matches, encode, encodeXYS_row]
theorem shr (x y : Nibble) : Statement (.shr x y) := fun _ => by
  simp [Instr.row, OpcodeRow.matches, encode, encodeXYS_row]
theorem subnReg (x y : Nibble) : Statement (.subnReg x y) := fun _ => by
  simp [Instr.row, OpcodeRow.matches, encode, encodeXYS_row]
theorem shl (x y : Nibble) : Statement (.shl x y) := fun _ => by
  simp [Instr.row, OpcodeRow.matches, encode, encodeXYS_row]
theorem sneReg (x y : Nibble) : Statement (.sneReg x y) := fun _ => by
  simp [Instr.row, OpcodeRow.matches, encode, encodeXYS_row]
theorem ldI (nnn : Addr) : Statement (.ldI nnn) := fun _ => by
  simp [Instr.row, OpcodeRow.matches, encode, encodeNNN_row]
theorem jpV0 (nnn : Addr) : Statement (.jpV0 nnn) := fun _ => by
  simp [Instr.row, OpcodeRow.matches, encode, encodeNNN_row]
theorem rnd (x : Nibble) (kk : Byte) : Statement (.rnd x kk) := fun _ => by
  simp [Instr.row, OpcodeRow.matches, encode, encodeXKK_row]
theorem drw (x y n : Nibble) : Statement (.drw x y n) := fun _ => by
  simp [Instr.row, OpcodeRow.matches, encode, encodeXYN_row]
theorem skp (x : Nibble) : Statement (.skp x) := fun _ => by
  simp [Instr.row, OpcodeRow.matches, encode, encodeXSS_row]
theorem sknp (x : Nibble) : Statement (.sknp x) := fun _ => by
  simp [Instr.row, OpcodeRow.matches, encode, encodeXSS_row]
theorem ldVxDT (x : Nibble) : Statement (.ldVxDT x) := fun _ => by
  simp [Instr.row, OpcodeRow.matches, encode, encodeXSS_row]
theorem ldDTVx (x : Nibble) : Statement (.ldDTVx x) := fun _ => by
  simp [Instr.row, OpcodeRow.matches, encode, encodeXSS_row]
theorem addI (x : Nibble) : Statement (.addI x) := fun _ => by
  simp [Instr.row, OpcodeRow.matches, encode, encodeXSS_row]
theorem ldF (x : Nibble) : Statement (.ldF x) := fun _ => by
  simp [Instr.row, OpcodeRow.matches, encode, encodeXSS_row]
theorem ldB (x : Nibble) : Statement (.ldB x) := fun _ => by
  simp [Instr.row, OpcodeRow.matches, encode, encodeXSS_row]
theorem storeRegs (x : Nibble) : Statement (.storeRegs x) := fun _ => by
  simp [Instr.row, OpcodeRow.matches, encode, encodeXSS_row]
theorem loadRegs (x : Nibble) : Statement (.loadRegs x) := fun _ => by
  simp [Instr.row, OpcodeRow.matches, encode, encodeXSS_row]
theorem unknown (w : Word) : Statement (.unknown w) := fun h => by
  simpa [Instr.row, encode, Instr.wellFormed] using h

end Sys2Proof.Laws.EncodingRow
end

