-- ==== Sys2Proof/Laws/Decode.lean ====
section
/-! SUPPORT. The bit fields of a word: what each field of an encoded word is, a word from its fields, and the fields, the bytes
and the rows of the opcode map as numbers. -/

set_option autoImplicit false

namespace Sys2Proof

/-! ### Fields of an encoded word -/

theorem fields_encodeNNN (op : Nibble) (nnn : Addr) :
    fieldOp (encodeNNN op nnn) = op ∧ fieldNNN (encodeNNN op nnn) = nnn := by
  refine ⟨?_, ?_⟩ <;>
    (apply BitVec.eq_of_getLsbD_eq
     intro i hi
     simp only [fieldOp, fieldNNN, encodeNNN, BitVec.getLsbD_append, BitVec.getLsbD_extractLsb']
     interval_cases i <;> simp)

theorem fields_encodeXKK (op x : Nibble) (kk : Byte) :
    fieldOp (encodeXKK op x kk) = op ∧ fieldX (encodeXKK op x kk) = x ∧ fieldKK (encodeXKK op x kk) = kk := by
  refine ⟨?_, ?_, ?_⟩ <;>
    (apply BitVec.eq_of_getLsbD_eq
     intro i hi
     simp only [fieldOp, fieldX, fieldKK, encodeXKK, BitVec.getLsbD_append, BitVec.getLsbD_extractLsb']
     interval_cases i <;> simp)

theorem fields_encodeXYN (op x y n : Nibble) :
    fieldOp (encodeXYN op x y n) = op ∧ fieldX (encodeXYN op x y n) = x ∧ fieldY (encodeXYN op x y n) = y ∧
      fieldN (encodeXYN op x y n) = n := by
  refine ⟨?_, ?_, ?_, ?_⟩ <;>
    (apply BitVec.eq_of_getLsbD_eq
     intro i hi
     simp only [fieldOp, fieldX, fieldY, fieldN, encodeXYN, BitVec.getLsbD_append, BitVec.getLsbD_extractLsb']
     interval_cases i <;> simp)

/-! ### A word from its fields -/

/-- A word is its fields put together, in each of the formats of R92. -/
theorem encode_fields (w : Word) :
    encodeNNN (fieldOp w) (fieldNNN w) = w ∧ encodeXKK (fieldOp w) (fieldX w) (fieldKK w) = w ∧
      encodeXYN (fieldOp w) (fieldX w) (fieldY w) (fieldN w) = w := by
  refine ⟨?_, ?_, ?_⟩ <;>
    (apply BitVec.eq_of_getLsbD_eq
     intro i hi
     simp only [fieldOp, fieldX, fieldY, fieldN, fieldKK, fieldNNN, encodeXYN, encodeXKK, encodeNNN,
       BitVec.getLsbD_append, BitVec.getLsbD_extractLsb']
     interval_cases i <;> simp)

/-- A word is its two bytes put together, the high one first. -/
theorem wordOfBytes_bytes (w : Word) : wordOfBytes (highByte w) (lowByte w) = w := by
  apply BitVec.eq_of_getLsbD_eq
  intro i hi
  simp only [wordOfBytes, highByte, lowByte, BitVec.getLsbD_append, BitVec.getLsbD_extractLsb']
  interval_cases i <;> simp

/-! ### Fields, bytes and rows as numbers -/

theorem fields_toNat (w : Word) :
    (fieldOp w).toNat = w.toNat / 4096 ∧ (fieldX w).toNat = w.toNat / 256 % 16 ∧ (fieldY w).toNat = w.toNat / 16 % 16 ∧
      (fieldN w).toNat = w.toNat % 16 ∧ (fieldKK w).toNat = w.toNat % 256 ∧ (fieldNNN w).toNat = w.toNat % 4096 := by
  have := w.isLt
  simp [fieldOp, fieldX, fieldY, fieldN, fieldKK, fieldNNN, BitVec.extractLsb'_toNat, Nat.shiftRight_eq_div_pow]
  omega

theorem wordOfBytes_toNat (b0 b1 : Byte) : (wordOfBytes b0 b1).toNat = b0.toNat * 256 + b1.toNat := by
  have := b1.isLt
  rw [wordOfBytes, BitVec.toNat_append, ← Nat.shiftLeft_add_eq_or_of_lt this]
  simp [Nat.shiftLeft_eq]

/-- A word matches a row with mask F000 when its `op` is the row's. -/
theorem matches_op (w v : Word) :
    OpcodeRow.matches ⟨0xF000#16, v⟩ w = true ↔ w.toNat / 4096 * 4096 = v.toNat := by
  have h := encodeNNN_row (fieldOp w) (fieldNNN w)
  rw [(encode_fields w).1] at h
  rw [OpcodeRow.matches, beq_iff_eq, h, ← BitVec.toNat_inj, BitVec.toNat_append, (fields_toNat w).1]
  simp [Nat.shiftLeft_eq]

/-- A word matches a row with mask F00F when its `op` and `n` are the row's. -/
theorem matches_op_n (w v : Word) :
    OpcodeRow.matches ⟨0xF00F#16, v⟩ w = true ↔ w.toNat / 4096 * 4096 + w.toNat % 16 = v.toNat := by
  have h := encodeXYS_row (fieldOp w) (fieldX w) (fieldY w) (fieldN w)
  rw [(encode_fields w).2.2] at h
  have e : ∀ op n : Nibble, ((op ++ 0#8) ++ n).toNat = op.toNat * 4096 + n.toNat := by decide
  rw [OpcodeRow.matches, beq_iff_eq, h, ← BitVec.toNat_inj, e, (fields_toNat w).1, (fields_toNat w).2.2.2.1]

/-- A word matches a row with mask F0FF when its `op` and `kk` are the row's. -/
theorem matches_op_kk (w v : Word) :
    OpcodeRow.matches ⟨0xF0FF#16, v⟩ w = true ↔ w.toNat / 4096 * 4096 + w.toNat % 256 = v.toNat := by
  have h := encodeXSS_row (fieldOp w) (fieldX w) (fieldKK w)
  rw [(encode_fields w).2.1] at h
  have e : ∀ (op : Nibble) (n : Byte), ((op ++ 0#4) ++ n).toNat = op.toNat * 4096 + n.toNat := by
    intro op n
    rw [BitVec.toNat_append, BitVec.toNat_append, ← Nat.shiftLeft_add_eq_or_of_lt n.isLt]
    simp [Nat.shiftLeft_eq]
    omega
  rw [OpcodeRow.matches, beq_iff_eq, h, ← BitVec.toNat_inj, e, (fields_toNat w).1, (fields_toNat w).2.2.2.2.1]

/-- A word matches a row with mask FFFF when it is the row's word. -/
theorem matches_all (w v : Word) : OpcodeRow.matches ⟨0xFFFF#16, v⟩ w = true ↔ w.toNat = v.toNat := by
  have : w &&& 0xFFFF#16 = w := by
    apply BitVec.eq_of_getLsbD_eq
    intro i hi
    rw [BitVec.getLsbD_and]
    interval_cases i <;> simp
  rw [OpcodeRow.matches, beq_iff_eq, this, ← BitVec.toNat_inj]

end Sys2Proof
end

