-- ==== Sys2Proof/Laws/Display.lean ====
section
/-! SUPPORT. What drawing does to each cell: one lemma per layer of the blit (a bit, a row, the rows, the sprite). -/

namespace Sys2Proof.Machine

/-- The bit that a sprite drawn at column `x0` and row `y0` puts on the cell of column `col` and row `row`: the sprite
wraps around both edges, and no cell is met twice (R181, R182). -/
def spriteBit (x0 y0 : Nat) (rows : List Byte) (col row : Nat) : Bool :=
  let b := (col + 64 - x0 % 64) % 64
  let r := (row + 32 - y0 % 32) % 32
  decide (b < 8) && decide (r < rows.length) && (rows.getD r 0).getLsbD (7 - b)

/-- Which bit of a sprite row drawn from column `x0` on falls on column `c`. -/
abbrev bitAt (x0 c : Nat) : Nat := (c + 64 - x0 % 64) % 64

/-- Which row of a sprite drawn from row `y0` on falls on row `r`. -/
abbrev rowAt (y0 r : Nat) : Nat := (r + 32 - y0 % 32) % 32

/-- A cell by its column and row. -/
theorem fbCell_index (fb : Vector (BitVec 64) 32) {col row : Nat} (hc : col < 64) (hr : row < 32) :
    fbCell fb (cellIndex col row) = fb[row].getLsbD col := by
  have h1 : (col + row * 64) / 64 = row := by omega
  have h2 : (col + row * 64) % 64 = col := by omega
  simp [fbCell, cellIndex, h1, h2, hr]

theorem blitBit_cells (col : Nat) (bit : Bool) (p : RowCanvas) (c : Nat) (h : col < 64) :
    (blitBit col bit p).cells.getLsbD c = (p.cells.getLsbD c ^^ (bit && decide (c = col))) := by
  cases bit
  · simp [blitBit]
  · simp only [blitBit, if_true, BitVec.getLsbD_xor, BitVec.getLsbD_shiftLeft, BitVec.getLsbD_one, Bool.true_and]
    congr 1
    by_cases e : c = col
    · simp [e, h]
    · by_cases l : c < col
      · simp [e, l]
      · have : c - col ≠ 0 := by omega
        simp [e, this]

/-- `blitBits` on a row: a cell changes exactly where one of the bits of the range falls on it and is 1, and a hit is one
more such cell that was lit. -/
theorem blitBits_spec (x0 : Nat) (sprite : Byte) (b k : Nat) (p : RowCanvas) (h : b + k ≤ 8) :
    (∀ c, c < 64 → (blitBits x0 sprite b k p).cells.getLsbD c =
      (p.cells.getLsbD c ^^ (decide (b ≤ bitAt x0 c ∧ bitAt x0 c < b + k) && sprite.getLsbD (7 - bitAt x0 c)))) ∧
    ((blitBits x0 sprite b k p).hit = true ↔ p.hit = true ∨ ∃ c, c < 64 ∧ p.cells.getLsbD c = true ∧
      b ≤ bitAt x0 c ∧ bitAt x0 c < b + k ∧ sprite.getLsbD (7 - bitAt x0 c) = true) := by
  induction k generalizing b p with
  | zero =>
    refine ⟨fun c _ => ?_, ?_⟩
    · have : ¬ (b ≤ bitAt x0 c ∧ bitAt x0 c < b + 0) := by omega
      simp only [blitBits, this, decide_false, Bool.false_and, Bool.xor_false]
    · constructor
      · exact .inl
      · rintro (h | ⟨c, -, -, h1, h2, -⟩)
        · exact h
        · omega
  | succ k ih =>
    have hcol : (x0 + b) % 64 < 64 := Nat.mod_lt _ (by decide)
    have hat : ∀ c, c < 64 → (c = (x0 + b) % 64 ↔ bitAt x0 c = b) := fun c hc => by
      unfold bitAt; omega
    obtain ⟨ih1, ih2⟩ := ih (b + 1) (blitBit ((x0 + b) % 64) (sprite.getLsbD (7 - b)) p) (by omega)
    refine ⟨fun c hc => ?_, ?_⟩
    · rw [blitBits, ih1 c hc, blitBit_cells _ _ _ _ hcol]
      by_cases e : bitAt x0 c = b
      · have e' := (hat c hc).2 e
        have n1 : ¬ (b + 1 ≤ bitAt x0 c ∧ bitAt x0 c < b + 1 + k) := by omega
        have n2 : b ≤ bitAt x0 c ∧ bitAt x0 c < b + (k + 1) := by omega
        rw [decide_eq_true e', decide_eq_false n1, decide_eq_true n2, e]
        simp
      · have e' : ¬ c = (x0 + b) % 64 := fun h => e ((hat c hc).1 h)
        have n : (b + 1 ≤ bitAt x0 c ∧ bitAt x0 c < b + 1 + k) ↔ (b ≤ bitAt x0 c ∧ bitAt x0 c < b + (k + 1)) := by omega
        simp only [decide_eq_false e', Bool.and_false, Bool.xor_false, n]
    · rw [blitBits, ih2]
      constructor
      · rintro (h | ⟨c, hc, h1, h2, h3, h4⟩)
        · simp only [blitBit, Bool.or_eq_true, Bool.and_eq_true] at h
          rcases h with h | ⟨h1, h2⟩
          · exact .inl h
          · have e := (hat _ hcol).1 rfl
            exact .inr ⟨_, hcol, h1, by omega, by omega, by rw [e]; exact h2⟩
        · have e' : ¬ c = (x0 + b) % 64 := fun h => by have := (hat c hc).1 h; omega
          rw [blitBit_cells _ _ _ _ hcol] at h1
          exact .inr ⟨c, hc, by simpa [e'] using h1, by omega, by omega, h4⟩
      · rintro (h | ⟨c, hc, h1, h2, h3, h4⟩)
        · exact .inl (by simp [blitBit, h])
        · by_cases e : bitAt x0 c = b
          · have e' := (hat c hc).2 e
            refine .inl ?_
            simp only [blitBit, Bool.or_eq_true, Bool.and_eq_true]
            exact .inr ⟨by rw [← e']; exact h1, by rw [← e]; exact h4⟩
          · have e' : ¬ c = (x0 + b) % 64 := fun h => e ((hat c hc).1 h)
            exact .inr ⟨c, hc, by rw [blitBit_cells _ _ _ _ hcol]; simpa [e'] using h1, by omega, by omega, h4⟩

/-- `blitRow`: the cells of row `y mod 32` change where a 1 bit falls, the other rows do not. -/
theorem blitRow_spec (x0 y : Nat) (sprite : Byte) (p : Canvas) :
    (∀ col row, col < 64 → (hr : row < 32) → (blitRow x0 y sprite p).fb[row].getLsbD col =
      (p.fb[row].getLsbD col ^^
        (decide (row = y % 32) && decide (bitAt x0 col < 8) && sprite.getLsbD (7 - bitAt x0 col)))) ∧
    ((blitRow x0 y sprite p).hit = true ↔ p.hit = true ∨ ∃ col row, ∃ (hr : row < 32), col < 64 ∧ row = y % 32 ∧
      p.fb[row].getLsbD col = true ∧ bitAt x0 col < 8 ∧ sprite.getLsbD (7 - bitAt x0 col) = true) := by
  have hy : y % 32 < 32 := Nat.mod_lt _ (by decide)
  obtain ⟨h1, h2⟩ := blitBits_spec x0 sprite 0 8 ⟨p.fb[y % 32], p.hit⟩ (by omega)
  refine ⟨fun col row hc hr => ?_, ?_⟩
  · unfold blitRow
    by_cases e : row = y % 32
    · subst e
      simp only [Vector.getElem_set_self, h1 col hc, Nat.zero_le, true_and, Nat.zero_add, decide_true, Bool.true_and]
    · simp [Vector.getElem_set_ne (h := Ne.symm e), e]
  · show (blitBits x0 sprite 0 8 ⟨p.fb[y % 32], p.hit⟩).hit = true ↔ _
    rw [h2]
    constructor
    · rintro (h | ⟨c, hc, h3, -, h4, h5⟩)
      · exact .inl h
      · exact .inr ⟨c, y % 32, hy, hc, rfl, h3, by omega, h5⟩
    · rintro (h | ⟨col, row, hr, hc, rfl, h3, h4, h5⟩)
      · exact .inl h
      · exact .inr ⟨col, hc, h3, Nat.zero_le _, by omega, h5⟩

/-- `blitRows`, by column and row: a cell changes where a row of the range falls on it with a 1 bit. -/
theorem blitRows_spec (x0 y0 r : Nat) (rows : List Byte) (p : Canvas) (h : r + rows.length ≤ 32) :
    (∀ col row, col < 64 → (hr : row < 32) → (blitRows x0 y0 r rows p).fb[row].getLsbD col =
      (p.fb[row].getLsbD col ^^ (decide (bitAt x0 col < 8) && decide (r ≤ rowAt y0 row ∧ rowAt y0 row < r + rows.length) &&
        (rows.getD (rowAt y0 row - r) 0).getLsbD (7 - bitAt x0 col)))) ∧
    ((blitRows x0 y0 r rows p).hit = true ↔ p.hit = true ∨ ∃ col row, ∃ (hr : row < 32), col < 64 ∧
      p.fb[row].getLsbD col = true ∧ bitAt x0 col < 8 ∧ r ≤ rowAt y0 row ∧ rowAt y0 row < r + rows.length ∧
      (rows.getD (rowAt y0 row - r) 0).getLsbD (7 - bitAt x0 col) = true) := by
  induction rows generalizing r p with
  | nil =>
    refine ⟨fun col row _ hr => ?_, ?_⟩
    · have : ¬ (r ≤ rowAt y0 row ∧ rowAt y0 row < r + ([] : List Byte).length) := by simp
      simp only [blitRows, this, decide_false, Bool.and_false, Bool.false_and, Bool.xor_false]
    · constructor
      · exact .inl
      · rintro (h | ⟨_, _, _, _, _, _, h1, h2, _⟩)
        · exact h
        · simp at h2; omega
  | cons sprite rest ih =>
    have hat : ∀ row, row < 32 → (row = (y0 + r) % 32 ↔ rowAt y0 row = r) := fun row hr => by
      simp only [List.length_cons] at h
      unfold rowAt; omega
    obtain ⟨ih1, ih2⟩ := ih (r + 1) (blitRow x0 (y0 + r) sprite p) (by simp at h; omega)
    obtain ⟨b1, b2⟩ := blitRow_spec x0 (y0 + r) sprite p
    have later : ∀ row, row < 32 → ¬ rowAt y0 row = r →
        ((r + 1 ≤ rowAt y0 row ∧ rowAt y0 row < r + 1 + rest.length) ↔
          (r ≤ rowAt y0 row ∧ rowAt y0 row < r + (rest.length + 1))) := fun row _ e => by omega
    have shift : ∀ row, r + 1 ≤ rowAt y0 row →
        rest.getD (rowAt y0 row - (r + 1)) 0 = (sprite :: rest).getD (rowAt y0 row - r) 0 := fun row hr => by
      rw [show rowAt y0 row - r = (rowAt y0 row - (r + 1)) + 1 by omega]; rfl
    refine ⟨fun col row hc hr => ?_, ?_⟩
    · rw [blitRows, ih1 col row hc hr, b1 col row hc hr]
      by_cases e : rowAt y0 row = r
      · have e' := (hat row hr).2 e
        have n1 : ¬ (r + 1 ≤ rowAt y0 row ∧ rowAt y0 row < r + 1 + rest.length) := by omega
        have n2 : r ≤ rowAt y0 row ∧ rowAt y0 row < r + (sprite :: rest).length := by simp; omega
        rw [decide_eq_true e', decide_eq_false n1, decide_eq_true n2, e]
        simp
      · have e' : ¬ row = (y0 + r) % 32 := fun h => e ((hat row hr).1 h)
        simp only [decide_eq_false e', Bool.false_and, Bool.xor_false, later row hr e, List.length_cons]
        by_cases n : r + 1 ≤ rowAt y0 row
        · rw [shift row n]
        · have n' : ¬ (r ≤ rowAt y0 row ∧ rowAt y0 row < r + (rest.length + 1)) := by omega
          simp only [decide_eq_false n', Bool.and_false, Bool.false_and]
    · rw [blitRows, ih2, b2]
      constructor
      · rintro ((h | ⟨col, row, hr, hc, e', h3, h4, h5⟩) | ⟨col, row, hr, hc, h3, h4, h5, h6, h7⟩)
        · exact .inl h
        · have e := (hat row hr).1 e'
          refine .inr ⟨col, row, hr, hc, h3, h4, by omega, by simp; omega, ?_⟩
          rw [e, Nat.sub_self]; exact h5
        · have e : ¬ rowAt y0 row = r := by omega
          have e' : ¬ row = (y0 + r) % 32 := fun h => e ((hat row hr).1 h)
          rw [b1 col row hc hr] at h3
          refine .inr ⟨col, row, hr, hc, by simpa [e'] using h3, h4, by omega, by simp; omega, ?_⟩
          rw [← shift row h5]; exact h7
      · rintro (h | ⟨col, row, hr, hc, h3, h4, h5, h6, h7⟩)
        · exact .inl (.inl h)
        · by_cases e : rowAt y0 row = r
          · refine .inl (.inr ⟨col, row, hr, hc, (hat row hr).2 e, h3, h4, ?_⟩)
            rw [e, Nat.sub_self] at h7; exact h7
          · have e' : ¬ row = (y0 + r) % 32 := fun h => e ((hat row hr).1 h)
            refine .inr ⟨col, row, hr, hc, ?_, h4, by omega, by simp at h6; omega, ?_⟩
            · rw [b1 col row hc hr]; simpa [e'] using h3
            · rw [shift row (by omega)]; exact h7

/-- `blit`, by cell: the picture is the old one XOR the sprite's bits, and the flag is whether a lit cell met a 1 bit. -/
theorem blit_spec (x0 y0 : Nat) (rows : List Byte) (fb : Vector (BitVec 64) 32) (h : rows.length ≤ 32) :
    (∀ col row, col < 64 → row < 32 → fbCell (blit x0 y0 rows fb).fb (cellIndex col row) =
      (fbCell fb (cellIndex col row) ^^ spriteBit x0 y0 rows col row)) ∧
    ((blit x0 y0 rows fb).hit = true ↔ ∃ col row, col < 64 ∧ row < 32 ∧ fbCell fb (cellIndex col row) = true ∧
      spriteBit x0 y0 rows col row = true) := by
  obtain ⟨h1, h2⟩ := blitRows_spec x0 y0 0 rows ⟨fb, false⟩ (by omega)
  refine ⟨fun col row hc hr => ?_, ?_⟩
  · rw [fbCell_index _ hc hr, fbCell_index _ hc hr]
    simpa [blit, spriteBit] using h1 col row hc hr
  · rw [blit, h2]
    constructor
    · rintro (h | ⟨col, row, hr, hc, h3, h4, h5, h6, h7⟩)
      · cases h
      · refine ⟨col, row, hc, hr, by rw [fbCell_index _ hc hr]; exact h3, ?_⟩
        simp only [spriteBit, Bool.and_eq_true, decide_eq_true_eq]
        exact ⟨⟨h4, by simpa using h6⟩, h7⟩
    · rintro ⟨col, row, hc, hr, h3, h4⟩
      rw [fbCell_index _ hc hr] at h3
      simp only [spriteBit, Bool.and_eq_true, decide_eq_true_eq] at h4
      exact .inr ⟨col, row, hr, hc, h3, h4.1.1, Nat.zero_le _, by simpa using h4.1.2, h4.2⟩

/-- Two framebuffers with the same cells are the same. -/
theorem fb_ext {f g : Vector (BitVec 64) 32}
    (h : ∀ col row, col < 64 → row < 32 → fbCell f (cellIndex col row) = fbCell g (cellIndex col row)) : f = g := by
  apply Vector.ext
  intro r hr
  apply BitVec.eq_of_getLsbD_eq
  intro c hc
  have := h c r hc hr
  rwa [fbCell_index _ hc hr, fbCell_index _ hc hr] at this

end Sys2Proof.Machine
end

