-- ==== Sys2Proof/Laws/Exec.lean ====
section
/-! SUPPORT. What the instructions that can halt do, each in two lemmas: the next state where it does not halt, in terms of
the setters, and the halt. The other instructions unfold to one next state. -/

set_option autoImplicit false

namespace Sys2Proof.Machine

variable (s : State)

theorem exec_ret_ok (h : 0 < s.sp.val) :
    exec .ret s = .next ((s.setStack ⟨s.sp.val - 1, by omega⟩ s.stack).setPc (s.stack[s.sp.val - 1]'(by omega))) := by
  simp [exec, execRet, pop_ok h]

theorem exec_ret_halt (h : s.sp.val = 0) : exec .ret s = .next (takeHalt .stackUnderflow s) := by
  simp [exec, execRet, pop_error h]

theorem exec_call_ok (nnn : Addr) (h : s.sp.val < 16) :
    exec (.call nnn) s =
      .next ((s.setStack ⟨s.sp.val + 1, by omega⟩ (s.stack.set s.sp.val s.nextPc h)).setPc (immAddr nnn)) := by
  simp [exec, execCall, push_ok h]

theorem exec_call_halt (nnn : Addr) (h : s.sp.val = 16) : exec (.call nnn) s = .next (takeHalt .stackOverflow s) := by
  simp [exec, execCall, push_error h]

theorem exec_skp_ok (x : Nibble) (h : (s.getV x).toNat < 16) :
    exec (.skp x) s = .next (skipIf (s.getKey ((s.getV x).setWidth 4)) s) := by
  simp [exec, execSkp, keyOperand_eq, h]

theorem exec_skp_halt (x : Nibble) (h : ¬ (s.getV x).toNat < 16) :
    exec (.skp x) s = .next (takeHalt .invalidKey s) := by
  simp [exec, execSkp, keyOperand_eq, h]

theorem exec_sknp_ok (x : Nibble) (h : (s.getV x).toNat < 16) :
    exec (.sknp x) s = .next (skipIf (!s.getKey ((s.getV x).setWidth 4)) s) := by
  simp [exec, execSknp, keyOperand_eq, h]

theorem exec_sknp_halt (x : Nibble) (h : ¬ (s.getV x).toNat < 16) :
    exec (.sknp x) s = .next (takeHalt .invalidKey s) := by
  simp [exec, execSknp, keyOperand_eq, h]

/-- A storing instruction changes memory, in the stored range only, and advances. -/
theorem exec_ldB_ok (x : Nibble) (h : effAddr s 2 < 4096) :
    ∃ m, exec (.ldB x) s = .next (advance (s.setMem m)) ∧
      (∀ b, Memory.get m b =
        if effAddr s 0 ≤ b ∧ b < effAddr s 3 then (bcdDigits (s.getV x)).getD (b - effAddr s 0) 0 else s.byteAt b) ∧
      (Memory.wf s.mem = true → Memory.wf m = true) := by
  obtain ⟨m, h1, h2, h3⟩ := writeRange_ok (a := effAddr s 0) (bs := bcdDigits (s.getV x)) (s := s)
    (by right; rw [bcdDigits_length]; simp [effAddr] at h ⊢; omega)
  refine ⟨m, by simp only [exec, execLdB, h1, finish_ok], fun b => ?_, h3⟩
  rw [h2 b, bcdDigits_length]
  simp [effAddr]

theorem exec_ldB_halt (x : Nibble) (h : ¬ effAddr s 2 < 4096) : exec (.ldB x) s = .next (takeHalt .outOfBounds s) := by
  have : writeRange (effAddr s 0) (bcdDigits (s.getV x)) s = .error .outOfBounds :=
    writeRange_error (by simp [bcdDigits]) (by rw [bcdDigits_length]; simp [effAddr] at h ⊢; omega)
  simp only [exec, execLdB, this, finish_error]

theorem exec_storeRegs_ok (x : Nibble) (h : effAddr s x.toNat < 4096) :
    ∃ m, exec (.storeRegs x) s = .next (advance (s.setMem m)) ∧
      (∀ b, Memory.get m b =
        if effAddr s 0 ≤ b ∧ b ≤ effAddr s x.toNat then s.getV (BitVec.ofNat 4 (b - effAddr s 0)) else s.byteAt b) ∧
      (Memory.wf s.mem = true → Memory.wf m = true) := by
  have hl := registerRange_length x s
  obtain ⟨m, h1, h2, h3⟩ := writeRange_ok (a := effAddr s 0) (bs := registerRange x s) (s := s)
    (by right; rw [hl]; simp [effAddr] at h ⊢; omega)
  refine ⟨m, by simp only [exec, execStoreRegs, h1, finish_ok], fun b => ?_, h3⟩
  rw [h2 b, hl]
  by_cases hb : effAddr s 0 ≤ b ∧ b ≤ effAddr s x.toNat
  · have hb' : effAddr s 0 ≤ b ∧ b < effAddr s 0 + (x.toNat + 1) := by simp [effAddr] at hb ⊢; omega
    rw [if_pos hb, if_pos hb', registerRange_getD x s (by simp [effAddr] at hb ⊢; omega)]
  · have hb' : ¬ (effAddr s 0 ≤ b ∧ b < effAddr s 0 + (x.toNat + 1)) := by simp [effAddr] at hb ⊢; omega
    rw [if_neg hb, if_neg hb']

theorem exec_storeRegs_halt (x : Nibble) (h : ¬ effAddr s x.toNat < 4096) :
    exec (.storeRegs x) s = .next (takeHalt .outOfBounds s) := by
  have hl := registerRange_length x s
  have : writeRange (effAddr s 0) (registerRange x s) s = .error .outOfBounds :=
    writeRange_error (by intro h0; simp [h0] at hl) (by rw [hl]; simp [effAddr] at h ⊢; omega)
  simp only [exec, execStoreRegs, this, finish_error]

/-- A bulk load changes registers only, those of its range, and advances. -/
theorem exec_loadRegs_ok (x : Nibble) (h : effAddr s x.toNat < 4096) :
    ∃ v, exec (.loadRegs x) s = .next (advance { s with v := v }) ∧
      ∀ z : Nibble, State.getV { s with v := v } z =
        if z.toNat ≤ x.toNat then s.byteAt (effAddr s z.toNat) else s.getV z := by
  obtain ⟨⟨v, hv⟩, hg⟩ :=
    setRegisters_spec 0 ((List.range (rangeLength x)).map fun k => s.byteAt (effAddr s 0 + k)) s
  refine ⟨v, ?_, fun z => ?_⟩
  · have hr : rangeLength x = 0 ∨ effAddr s 0 + rangeLength x ≤ 4096 := by
      simp [effAddr, rangeLength] at h ⊢; omega
    simp only [exec, execLoadRegs, readRange_eq, hr, if_true, finish_ok, hv]
  · rw [← hv, hg z]
    by_cases hz : z.toNat ≤ x.toNat
    · have hz' : z.toNat < x.toNat + 1 := by omega
      simp [hz, hz', rangeLength, effAddr]
    · have hz' : ¬ z.toNat < x.toNat + 1 := by omega
      simp [hz, hz', rangeLength]

theorem exec_loadRegs_halt (x : Nibble) (h : ¬ effAddr s x.toNat < 4096) :
    exec (.loadRegs x) s = .next (takeHalt .outOfBounds s) := by
  have hr : ¬ (rangeLength x = 0 ∨ effAddr s 0 + rangeLength x ≤ 4096) := by
    simp [effAddr, rangeLength] at h ⊢; omega
  simp only [exec, execLoadRegs, readRange_eq, hr, if_false, finish_error]

/-- The bytes of a sprite of `n` rows at `I` (R181). -/
def spriteRows (n : Nat) : List Byte := (List.range n).map fun r => s.byteAt (effAddr s r)

theorem exec_drw_ok (x y n : Nibble) (h : n.toNat = 0 ∨ effAddr s n.toNat ≤ 4096) :
    exec (.drw x y n) s = .next (advance
      ((s.setFb (blit (s.getV x).toNat (s.getV y).toNat (spriteRows s n.toNat) s.fb).fb).setFlag
        (blit (s.getV x).toNat (s.getV y).toNat (spriteRows s n.toNat) s.fb).hit)) := by
  have hr : n.toNat = 0 ∨ effAddr s 0 + n.toNat ≤ 4096 := by simp only [effAddr] at h ⊢; omega
  simp only [exec, execDrw, readRange_eq, hr, if_true, finish_ok]
  rfl

theorem exec_drw_halt (x y n : Nibble) (h : ¬ (n.toNat = 0 ∨ effAddr s n.toNat ≤ 4096)) :
    exec (.drw x y n) s = .next (takeHalt .outOfBounds s) := by
  have hr : ¬ (n.toNat = 0 ∨ effAddr s 0 + n.toNat ≤ 4096) := by simp only [effAddr] at h ⊢; omega
  simp only [exec, execDrw, readRange_eq, hr, if_false, finish_error]

/-- What a flag-defining operation leaves in each register: the flag in `VF`, the result in `V[x]` where x is not F. -/
theorem writeResultAndFlag_getV (x z : Nibble) (r : Byte) (f : Bool) :
    (writeResultAndFlag x r f s).getV z = if z = 15 then flagByte f else if z = x then r else s.getV z := by
  simp only [writeResultAndFlag, State.setFlag, State.setV_getV, Config.flagReg]

end Sys2Proof.Machine
end

