-- ==== Sys2Proof/Tests/Slice0.lean ====
section
/-! SUPPORT. Small tests of the model and the witnesses of the statements. Every expected value is from spec/: the encoding
table R95, or a vector of 95_test_vectors.md, named in the comment; in a vector, state that is not listed is the reset state. -/

set_option autoImplicit false

namespace Sys2Proof.Tests

open Sys2Proof Sys2Proof.Machine

/-! ### Helpers -/

/-- The next state of an outcome, if it is one. -/
def nextOf : Host.Outcome State Fault Refusal → Option State
  | .next t => some t
  | _ => none

/-- The reset state with some registers set. -/
def regs (l : List (Nibble × Byte)) : State := l.foldl (fun s p => s.setV p.1 p.2) State.reset

/-- The state with some bytes of memory set, from an address on. -/
def bytesAt (a : Nat) (l : List Byte) (s : State) : State := placeBytes a l s

/-- The state with one cell of the framebuffer lit. -/
def lit (col row : Nat) (s : State) : State :=
  s.setFb (s.fb.set (row % 32) (1#64 <<< col) (Nat.mod_lt _ (by decide)))

/-- The state one STEP after the word was put at `pc`. -/
def after (s : State) (w : Nat) : Option State := nextOf (step (s.withFetchWord 16 w))

/-- What is asked of the state one STEP after the word was put at `pc`. -/
def afterIs (s : State) (w : Nat) (p : State → Bool) : Bool :=
  match after s w with
  | some t => p t
  | none => false

/-- What is asked of the state after one event. -/
def eventIs (e : Event) (s : State) (p : State → Bool) : Bool :=
  match nextOf (step { s with agenda := [e] }) with
  | some t => p t
  | none => false

theorem next_of_isSome {o : Host.Outcome State Fault Refusal} (h : (nextOf o).isSome = true) : ∃ t, o = .next t := by
  cases o with
  | next t => exact ⟨t, rfl⟩
  | _ => simp [nextOf] at h

/-- A witness for a premise `o = next t` with a further premise on `t`. -/
theorem next_of_any {o : Host.Outcome State Fault Refusal} {p : State → Bool} (h : (nextOf o).any p = true) :
    ∃ t, o = .next t ∧ p t = true := by
  cases o with
  | next t => exact ⟨t, rfl, by simpa [nextOf] using h⟩
  | _ => simp [nextOf] at h

/-! ### Well-formedness -/

/-- The one check of WellFormed refuses a catch-all whose word is a listed instruction's, in every family. -/
theorem test_wellFormed_refuses :
    (Instr.unknown 0x00E0).wellFormed = false ∧ (Instr.unknown 0x1200).wellFormed = false ∧
      (Instr.unknown 0x5120).wellFormed = false ∧ (Instr.unknown 0x812E).wellFormed = false ∧
      (Instr.unknown 0xE09E).wellFormed = false ∧ (Instr.unknown 0xF065).wellFormed = false := by decide

theorem test_wellFormed_accepts :
    (Instr.unknown 0x00E1).wellFormed = true ∧ (Instr.unknown 0x812F).wellFormed = true ∧
      (Instr.drw 15 15 0).wellFormed = true := by decide

/-! ### Decoding: a word of every constructor, written out from the patterns of R95 -/

theorem test_decode_family0 :
    decodeTableWord 16 0b0000000011100000 = some .cls ∧ decodeTableWord 16 0b0000000011101110 = some .ret ∧
      decodeTableWord 16 0b0000000000000000 = some (.unknown 0) := by decide

theorem test_decode_addresses :
    decodeTableWord 16 0b0001001000110100 = some (.jp 0x234) ∧
      decodeTableWord 16 0b0010111000000001 = some (.call 0xE01) ∧
      decodeTableWord 16 0b1010111111110001 = some (.ldI 0xFF1) ∧
      decodeTableWord 16 0b1011001100000101 = some (.jpV0 0x305) := by decide

theorem test_decode_immediates :
    decodeTableWord 16 0b0011101000000101 = some (.seByte 0xA 0x05) ∧
      decodeTableWord 16 0b0100101010000101 = some (.sneByte 0xA 0x85) ∧
      decodeTableWord 16 0b0110111100000001 = some (.ldByte 0xF 0x01) ∧
      decodeTableWord 16 0b0111000111111111 = some (.addByte 0x1 0xFF) ∧
      decodeTableWord 16 0b1100001100001111 = some (.rnd 0x3 0x0F) := by decide

theorem test_decode_registers :
    decodeTableWord 16 0b0101000100100000 = some (.seReg 1 2) ∧
      decodeTableWord 16 0b1001000100100000 = some (.sneReg 1 2) ∧
      decodeTableWord 16 0b1101000100101010 = some (.drw 1 2 10) := by decide

theorem test_decode_family8 :
    decodeTableWord 16 0b1000101010110000 = some (.ldReg 0xA 0xB) ∧
      decodeTableWord 16 0b1000101010110001 = some (.orReg 0xA 0xB) ∧
      decodeTableWord 16 0b1000101010110010 = some (.andReg 0xA 0xB) ∧
      decodeTableWord 16 0b1000101010110011 = some (.xorReg 0xA 0xB) ∧
      decodeTableWord 16 0b1000101010110100 = some (.addReg 0xA 0xB) ∧
      decodeTableWord 16 0b1000101010110101 = some (.subReg 0xA 0xB) ∧
      decodeTableWord 16 0b1000101010110110 = some (.shr 0xA 0xB) ∧
      decodeTableWord 16 0b1000101010110111 = some (.subnReg 0xA 0xB) ∧
      decodeTableWord 16 0b1000101010111110 = some (.shl 0xA 0xB) := by decide

theorem test_decode_familyE :
    decodeTableWord 16 0b1110001010011110 = some (.skp 2) ∧
      decodeTableWord 16 0b1110001010100001 = some (.sknp 2) := by decide

theorem test_decode_familyF :
    decodeTableWord 16 0b1111010100000111 = some (.ldVxDT 5) ∧
      decodeTableWord 16 0b1111010100010101 = some (.ldDTVx 5) ∧
      decodeTableWord 16 0b1111010100011110 = some (.addI 5) ∧
      decodeTableWord 16 0b1111010100101001 = some (.ldF 5) ∧
      decodeTableWord 16 0b1111010100110011 = some (.ldB 5) ∧
      decodeTableWord 16 0b1111010101010101 = some (.storeRegs 5) ∧
      decodeTableWord 16 0b1111010101100101 = some (.loadRegs 5) := by decide

/-- X1, X14: the byte at the lower address is the high one. Fewer than two bytes are refused by name. -/
theorem test_decode_byte_order :
    decodeBytes [0x12, 0x34, 0x77] = .ok (.jp 0x234, [0x77]) ∧ decodeBytes [0x34, 0x12] = .ok (.seByte 4 0x12, []) ∧
      decodeBytes [0x12] = .error .truncated := by decide

/-! ### Control transfer -/

/-- T1. -/
theorem test_jp : afterIs State.reset 0x1234 (fun t => t.pc == 0x234) = true := by decide
/-- T15: an odd `pc` fetches from the two bytes there. -/
theorem test_jp_odd_pc : afterIs (State.reset.setPc 0x201) 0x1235 (fun t => t.pc == 0x235) = true := by decide
/-- T6. -/
theorem test_call : afterIs (State.reset.setPc 0x204) 0x2210 (fun t => t.pc == 0x210 && t.sp == 1 && t.stack[0] == 0x206) =
    true := by decide
/-- T7. -/
theorem test_call_overflow : afterIs (State.reset.setStack 16 State.reset.stack) 0x2300
    (fun t => t.pc == 0x200 && t.sp == 16 && t.run == .halted .stackOverflow) = true := by decide
/-- T9. -/
theorem test_ret : afterIs ((State.reset.setPc 0x212).setStack 1 (State.reset.stack.set 0 0x206)) 0x00EE
    (fun t => t.pc == 0x206 && t.sp == 0 && t.stack[0] == 0x206) = true := by decide
/-- T10. -/
theorem test_ret_underflow : afterIs State.reset 0x00EE (fun t => t.pc == 0x200 && t.run == .halted .stackUnderflow) = true := by
  decide
/-- T13. -/
theorem test_jpV0_largest : afterIs (regs [(0, 0xFF)]) 0xBFFF (fun t => t.pc == 0x10FE) = true := by decide
/-- T14. -/
theorem test_jpV0_always_V0 : afterIs (regs [(0, 1), (3, 0x77)]) 0xB300 (fun t => t.pc == 0x301) = true := by decide
/-- T4, T16: the halt at fetch. -/
theorem test_fetch_halts :
    (nextOf (step (State.reset.setPc 0xFFF))).any (fun t => t.pc == 0xFFF && t.run == .halted .outOfBounds) = true ∧
      (nextOf (step (State.reset.setPc 0x10FE))).any (fun t => t.pc == 0x10FE && t.run == .halted .outOfBounds) = true := by
  decide

/-! ### Skips -/

/-- T20, T21. -/
theorem test_seByte : afterIs (regs [(10, 5)]) 0x3A05 (fun t => t.pc == 0x204) = true ∧
    afterIs (regs [(10, 6)]) 0x3A05 (fun t => t.pc == 0x202) = true := by decide
/-- T31: a skip to 0x1000 is accepted. -/
theorem test_seByte_at_end : afterIs (State.reset.setPc 0xFFC) 0x3000 (fun t => t.pc == 0x1000 && t.run == .ready) = true := by
  decide
/-- T22, T23. -/
theorem test_sneByte : afterIs (regs [(10, 5)]) 0x4A05 (fun t => t.pc == 0x202) = true ∧
    afterIs (regs [(10, 6)]) 0x4A05 (fun t => t.pc == 0x204) = true := by decide
/-- T24, T25. -/
theorem test_seReg : afterIs ((regs [(1, 0x7F), (2, 0x7F)]).setPc 0x300) 0x5120 (fun t => t.pc == 0x304) = true ∧
    afterIs ((regs [(1, 0x7F), (2, 0x7E)]).setPc 0x300) 0x5120 (fun t => t.pc == 0x302) = true := by decide
/-- T27, T28. -/
theorem test_sneReg : afterIs ((regs [(1, 1), (2, 2)]).setPc 0x300) 0x9120 (fun t => t.pc == 0x304) = true ∧
    afterIs ((regs [(1, 2), (2, 2)]).setPc 0x300) 0x9120 (fun t => t.pc == 0x302) = true := by decide

/-! ### Immediates and the ALU -/

/-- T40. -/
theorem test_ldByte : afterIs State.reset 0x6A2C (fun t => t.getV 10 == 0x2C && t.pc == 0x202) = true := by decide
/-- T43: wraps, `VF` stays 1. -/
theorem test_addByte : afterIs (regs [(1, 0xFE), (15, 1)]) 0x7105 (fun t => t.getV 1 == 3 && t.getV 15 == 1) = true := by decide
/-- T45. -/
theorem test_addByte_VF : afterIs (regs [(15, 0xFF)]) 0x7F01 (fun t => t.getV 15 == 0) = true := by decide
/-- T50. -/
theorem test_ldReg : afterIs (regs [(2, 0x42)]) 0x8120 (fun t => t.getV 1 == 0x42 && t.getV 2 == 0x42) = true := by decide
/-- T53. -/
theorem test_orReg : afterIs (regs [(1, 0xF0), (2, 0x0F), (15, 1)]) 0x8121 (fun t => t.getV 1 == 0xFF && t.getV 15 == 1) = true := by
  decide
/-- T54. -/
theorem test_andReg : afterIs (regs [(1, 0xF3), (2, 0x3C), (15, 1)]) 0x8122 (fun t => t.getV 1 == 0x30 && t.getV 15 == 1) =
    true := by decide
/-- T55. -/
theorem test_xorReg : afterIs (regs [(1, 0xFF), (2, 0x0F), (15, 1)]) 0x8123 (fun t => t.getV 1 == 0xF0 && t.getV 15 == 1) =
    true := by decide
/-- T57. -/
theorem test_addReg : afterIs (regs [(1, 0xC8), (2, 0x64)]) 0x8124 (fun t => t.getV 1 == 0x2C && t.getV 15 == 1) = true := by decide
/-- T63: x = F, the sum is lost. -/
theorem test_addReg_VF : afterIs (regs [(15, 0xFF), (1, 1)]) 0x8F14 (fun t => t.getV 15 == 1 && t.getV 1 == 1) = true := by decide
/-- T68. -/
theorem test_subReg : afterIs (regs [(1, 3), (2, 5), (15, 1)]) 0x8125 (fun t => t.getV 1 == 0xFE && t.getV 15 == 0) = true := by
  decide
/-- T69: equal operands give 0. -/
theorem test_subReg_equal : afterIs (regs [(1, 7), (2, 7), (15, 1)]) 0x8125 (fun t => t.getV 1 == 0 && t.getV 15 == 0) = true := by
  decide
/-- T74. -/
theorem test_shr : afterIs (regs [(1, 5), (2, 0xAA)]) 0x8126 (fun t => t.getV 1 == 2 && t.getV 15 == 1 && t.getV 2 == 0xAA) =
    true := by decide
/-- T79: x = F. -/
theorem test_shr_VF : afterIs (regs [(15, 2)]) 0x8F06 (fun t => t.getV 15 == 0) = true := by decide
/-- T81. -/
theorem test_subnReg : afterIs (regs [(1, 3), (2, 5)]) 0x8127 (fun t => t.getV 1 == 2 && t.getV 15 == 1 && t.getV 2 == 5) = true := by
  decide
/-- T83: equal operands give 0. -/
theorem test_subnReg_equal : afterIs (regs [(1, 9), (2, 9), (15, 1)]) 0x8127 (fun t => t.getV 1 == 0 && t.getV 15 == 0) = true := by
  decide
/-- T85. -/
theorem test_shl : afterIs (regs [(1, 0x81), (2, 0xAA)]) 0x812E (fun t => t.getV 1 == 2 && t.getV 15 == 1 && t.getV 2 == 0xAA) =
    true := by decide
/-- T90: x = F. -/
theorem test_shl_VF : afterIs (regs [(15, 0x40)]) 0x8F0E (fun t => t.getV 15 == 0) = true := by decide

/-! ### The index register and memory -/

/-- T101. -/
theorem test_ldI : afterIs (State.reset.setI 0x1234) 0xAFFF (fun t => t.i == 0xFFF) = true := by decide
/-- T103. -/
theorem test_addI : afterIs ((regs [(2, 1)]).setI 0xFFF) 0xF21E (fun t => t.i == 0x1000 && t.run == .ready && t.getV 15 == 0) =
    true := by decide
/-- T104. -/
theorem test_addI_wraps : afterIs ((regs [(2, 1)]).setI 0xFFFF) 0xF21E (fun t => t.i == 0) = true := by decide
/-- T105. -/
theorem test_ldF : afterIs ((regs [(0, 0xA)]).setI 0x300) 0xF029 (fun t => t.i == 0x32) = true := by decide
/-- T109: the byte is not masked. -/
theorem test_ldF_unmasked : afterIs (regs [(0, 0xFF)]) 0xF029 (fun t => t.i == 0x4FB) = true := by decide
/-- T111. -/
theorem test_ldB : afterIs (((regs [(3, 0xFF)]).setI 0x300) |> bytesAt 0x300 [9, 9, 9, 9]) 0xF333
    (fun t => t.byteAt 0x300 == 2 && t.byteAt 0x301 == 5 && t.byteAt 0x302 == 5 && t.byteAt 0x303 == 9) = true := by decide
/-- T116. -/
theorem test_ldB_halts : afterIs ((regs [(3, 0xFF)]).setI 0xFFE) 0xF333
    (fun t => t.run == .halted .outOfBounds && t.byteAt 0xFFE == 0 && t.byteAt 0xFFF == 0 && t.pc == 0x200) = true := by decide
/-- T118. -/
theorem test_storeRegs : afterIs ((regs [(0, 0x11), (1, 0x22), (2, 0x33), (3, 0x44)]).setI 0x400) 0xF255
    (fun t => t.byteAt 0x400 == 0x11 && t.byteAt 0x401 == 0x22 && t.byteAt 0x402 == 0x33 && t.byteAt 0x403 == 0 &&
      t.i == 0x400) = true := by decide
/-- T121. -/
theorem test_storeRegs_halts : afterIs ((regs [(0, 0xAB), (1, 0xCD)]).setI 0xFFF) 0xF155
    (fun t => t.run == .halted .outOfBounds && t.byteAt 0xFFF == 0) = true := by decide
/-- T124: 16 registers, from the font. -/
theorem test_loadRegs : afterIs State.reset 0xFF65
    (fun t => t.getV 0 == 0xF0 && t.getV 5 == 0x20 && t.getV 9 == 0x70 && t.getV 15 == 0xF0 && t.i == 0) = true := by decide
/-- T126. -/
theorem test_loadRegs_halts : afterIs ((regs [(0, 1), (15, 1)]).setI 0xFF1) 0xFF65
    (fun t => t.run == .halted .outOfBounds && t.getV 0 == 1 && t.getV 15 == 1) = true := by decide

/-! ### The framebuffer -/

/-- T140. -/
theorem test_cls : afterIs ((regs [(15, 1)]) |> lit 0 0 |> lit 63 31) 0x00E0
    (fun t => !t.cell 0 && !t.cell 2047 && t.getV 15 == 1) = true := by decide
/-- T144: the wrap is per row. -/
theorem test_drw_wraps : afterIs (((regs [(1, 0x1F), (15, 1)]).setI 0x300) |> bytesAt 0x300 [0x80, 0x80]) 0xD012
    (fun t => t.cell 1984 && t.cell 0 && !t.cell 1 && t.getV 15 == 0) = true := by decide
/-- T148: one cell lit, one cleared, a collision. -/
theorem test_drw_collides : afterIs ((State.reset.setI 0x300) |> bytesAt 0x300 [0xC0] |> lit 1 0) 0xD001
    (fun t => t.cell 0 && !t.cell 1 && t.getV 15 == 1) = true := by decide

/-! ### Timer, keys, random, unknown -/

/-- T160. -/
theorem test_ldVxDT : afterIs (State.reset.setDt 42) 0xF307 (fun t => t.getV 3 == 0x2A && t.dt == 42) = true := by decide
/-- T162. -/
theorem test_ldDTVx : afterIs (regs [(3, 0x3C)]) 0xF315 (fun t => t.dt == 60 && t.getV 3 == 0x3C) = true := by decide
/-- T164, T166: only the named key counts. -/
theorem test_skp : afterIs ((regs [(3, 10)]).setKey 10 true) 0xE39E (fun t => t.pc == 0x204) = true ∧
    afterIs ((regs [(3, 10)]).setKey 11 true) 0xE39E (fun t => t.pc == 0x202) = true := by decide
/-- T167: 16 is not masked to 0. -/
theorem test_skp_halts : afterIs ((regs [(3, 16)]).setKey 0 true) 0xE39E (fun t => t.pc == 0x200 && t.run == .halted .invalidKey) =
    true := by decide
/-- T169, T170. -/
theorem test_sknp : afterIs (regs [(3, 10)]) 0xE3A1 (fun t => t.pc == 0x204) = true ∧
    afterIs ((regs [(3, 10)]).setKey 10 true) 0xE3A1 (fun t => t.pc == 0x202) = true := by decide
/-- T171. -/
theorem test_sknp_halts : afterIs ((regs [(3, 0x1A)]).setKey 10 true) 0xE3A1 (fun t => t.run == .halted .invalidKey) = true := by
  decide
/-- T172: the draw 0xA7, masked. -/
theorem test_rnd : eventIs (.step (some 0xA7)) (bytesAt 0x200 [0xC3, 0x0F] State.reset) (fun t => t.getV 3 == 7 && t.pc == 0x202) =
    true := by decide
/-- T173 with a free draw: the mask 0 gives 0 for every draw. -/
theorem test_rnd_free : (match exec (.rnd 3 0) (regs [(3, 0x55)]) with | .next t => t.getV 3 | _ => 0xFF) = 0 := by
  simp [exec, execRnd, advance]
/-- T187. -/
theorem test_unknown : afterIs (State.reset.setPc 0x300) 0x812F
    (fun t => t.pc == 0x302 && t.report == some ⟨0x300, 0x812F⟩ && t.v == State.reset.v) = true := by decide
/-- E15: nothing loaded. -/
theorem test_unknown_zero : (nextOf (step State.reset)).any (fun t => t.pc == 0x202 && t.report == some ⟨0x200, 0⟩) = true := by
  decide

/-! ### Events -/

/-- E1, E2, E3. -/
theorem test_tick : eventIs .tick (State.reset.setDt 60) (fun t => t.dt == 59) = true ∧
    eventIs .tick (State.reset.setDt 1) (fun t => t.dt == 0) = true ∧ eventIs .tick State.reset (fun t => t.dt == 0) = true := by
  decide
/-- E4, E8: TICK and KEY act in `Halted`. -/
theorem test_events_in_halted :
    eventIs .tick ((State.reset.setDt 5).setRun (.halted .stackUnderflow))
      (fun t => t.dt == 4 && t.run == .halted .stackUnderflow) = true ∧
    eventIs (.key 3 true) (State.reset.setRun (.halted .outOfBounds))
      (fun t => t.getKey 3 && t.run == .halted .outOfBounds) = true := by decide
/-- E5, E7. -/
theorem test_key : eventIs (.key 10 true) State.reset (fun t => t.getKey 10 && !t.getKey 9) = true ∧
    eventIs (.key 10 false) (State.reset.setKey 10 true) (fun t => !t.getKey 10) = true := by decide
/-- E9. -/
theorem test_step_in_halted : eventIs (.step (some 7)) (State.reset.setRun (.halted .invalidKey))
    (fun t => t.pc == 0x200 && t.run == .halted .invalidKey && t.report == none) = true := by decide
/-- E10, E11. -/
theorem test_load : eventIs (.load [0x12, 0x34]) State.reset
      (fun t => t.byteAt 0x200 == 0x12 && t.byteAt 0x201 == 0x34 && t.run == .ready && t.pc == 0x200) = true ∧
    eventIs (.load []) State.reset (fun t => t.mem == [] && t.run == .ready) = true := by decide
/-- E13. -/
theorem test_load_too_large (l : List Byte) (h : l.length = 3585) :
    happen (.load l) State.reset = .next { State.reset with run := .halted .programTooLarge, loadOpen := false } := by
  simp [happen, loadEvent, h, State.reset, takeHalt, State.setRun]
/-- R41, R231: no second LOAD. -/
theorem test_load_twice : step { State.reset with agenda := [.load [1]], loadOpen := false } = .refused .loadOutOfTurn := rfl
/-- E14. -/
theorem test_reset : eventIs .reset (((regs [(4, 4)]).setRun (.halted .invalidKey)).setPc 0x300 |> bytesAt 0x300 [7] |> lit 3 3)
    (fun t => t == State.reset) = true := by decide

/-! ### Witnesses: the hypotheses of every statement can be met, each clause at the edges of its range -/

/-- The far edges of the invariant: `pc` of 0x10FE, a slot that holds 0x1000, memory listed. -/
def edge : State := bytesAt 0xFFF [1] ((State.reset.setPc 0x10FE).setStack 16 (State.reset.stack.set 15 0x1000))

theorem wit_invariant : MachineInv edge ∧ (∃ t, step edge = .next t) ∧ MachineInv State.reset ∧ (∃ t, step State.reset = .next t) :=
  ⟨by decide, next_of_isSome (by decide), by decide, next_of_isSome (by decide)⟩

theorem wit_decodeOfEncode : (Instr.drw 15 0 15).wellFormed = true ∧ (Instr.unknown 0xFFFF).wellFormed = true := by decide

theorem wit_memory : 4095 < 4096 ∧ 4096 ≤ 4096 := by decide

theorem wit_fetch : (State.reset.setPc 0xFFE).pc.toNat + 1 < 4096 := by decide

theorem wit_image : State.reset.loadOpen = true ∧ (List.replicate 3582 (0 : Byte)).length + 2 ≤ 3584 ∧ State.reset.pc = 0x200 :=
  ⟨rfl, by rw [List.length_replicate], rfl⟩

theorem wit_storedCode :
    (1 ≤ (1 : Nibble).toNat ∧ ((State.reset.setPc 0xFFC).setI 0xFFE).i.toNat = ((State.reset.setPc 0xFFC).setI 0xFFE).pc.toNat + 2 ∧
      ((State.reset.setPc 0xFFC).setI 0xFFE).i.toNat + (1 : Nibble).toNat < 4096) ∧
    (1 ≤ (15 : Nibble).toNat ∧ (State.reset.setI 0x202).i.toNat = (State.reset.setI 0x202).pc.toNat + 2 ∧
      (State.reset.setI 0x202).i.toNat + (15 : Nibble).toNat < 4096) := by decide

theorem wit_stepExecutes :
    (State.reset.setPc 0xFFE).run = .ready ∧ (State.reset.setPc 0xFFE).pc.toNat + 1 < 4096 ∧
      decodeBytes [(State.reset.setPc 0xFFE).byteAt (State.reset.setPc 0xFFE).pc.toNat,
        (State.reset.setPc 0xFFE).byteAt ((State.reset.setPc 0xFFE).pc.toNat + 1)] = .ok (.unknown 0, []) ∧
      (State.reset.setPc 0xFFE).agenda = [] := by decide

theorem wit_stepExecutes_given :
    ({ State.reset with agenda := [.step (some 1), .tick] } : State).run = .ready ∧
      decodeBytes [State.reset.byteAt 0x200, State.reset.byteAt 0x201] = .ok (.unknown 0, []) ∧
      ({ State.reset with agenda := [.step (some 1), .tick] } : State).agenda = .step (some 1) :: [.tick] := by decide

theorem wit_halted : (State.reset.setRun (.halted .invalidKey)).run = .halted .invalidKey ∧
    (State.reset.setRun (.halted .programTooLarge)).run = .halted .programTooLarge := by decide

/-- A STEP that halts at the fetch, one that halts in the instruction, and one that does not halt. -/
theorem wit_stepHalts :
    ((State.reset.setPc 0xFFF).run = .ready ∧ stepHaltCause (State.reset.setPc 0xFFF) = some .outOfBounds) ∧
      ((State.reset.withFetchWord 16 0x00EE).run = .ready ∧
        stepHaltCause (State.reset.withFetchWord 16 0x00EE) = some .stackUnderflow) ∧
      ((State.reset.setPc 0xFFE).run = .ready ∧ stepHaltCause (State.reset.setPc 0xFFE) = none) := by decide

theorem wit_invalidRegister : ∃ t, happen .tick (State.reset.setRun (.halted .invalidRegister)) = .next t ∧
    t.run = .halted .invalidRegister := ⟨_, rfl, rfl⟩

theorem wit_leavesHalted :
    ({ State.reset with run := .halted .stackOverflow, loadOpen := false } : State).run = .halted .stackOverflow ∧
      ({ State.reset with run := .halted .stackOverflow, loadOpen := false } : State).loadOpen = false ∧
      (Event.step none ≠ .reset ∧ Event.tick ≠ .reset ∧ Event.key 1 true ≠ .reset) ∧
      ∃ t, happen (.step none) { State.reset with run := .halted .stackOverflow, loadOpen := false } = .next t :=
  ⟨rfl, rfl, by decide, ⟨_, rfl⟩⟩

/-- T2: a jump to itself. -/
theorem wit_finished : (State.reset.withFetchWord 16 0x1200).finished = true := by decide

theorem wit_touchStack :
    (∃ t, exec (.call 0x300) State.reset = .next t ∧ (t.sp != State.reset.sp && t.stack != State.reset.stack) = true) ∧
      (∃ t, exec .ret (State.reset.setStack 16 State.reset.stack) = .next t ∧
        (t.sp != (State.reset.setStack 16 State.reset.stack).sp) = true) :=
  ⟨next_of_any (by decide), next_of_any (by decide)⟩

theorem wit_writeMemory :
    (∃ t, exec (.ldB 3) ((regs [(3, 7)]).setI 0xFFD) = .next t ∧ (t.byteAt 0xFFF != 0) = true) ∧
      (∃ t, exec (.storeRegs 1) ((regs [(1, 7)]).setI 0xFFE) = .next t ∧ (t.byteAt 0xFFF != 0) = true) :=
  ⟨next_of_any (by decide), next_of_any (by decide)⟩

theorem wit_writeFramebuffer :
    (∃ t, exec .cls (lit 5 5 State.reset) = .next t ∧ (t.fb != (lit 5 5 State.reset).fb) = true) ∧
      (∃ t, exec (.drw 0 1 1) State.reset = .next t ∧ (t.fb != State.reset.fb) = true) :=
  ⟨next_of_any (by decide), next_of_any (by decide)⟩

theorem wit_writeI :
    (∃ t, exec (.ldI 0xFFF) State.reset = .next t ∧ (t.i != State.reset.i) = true) ∧
      (∃ t, exec (.addI 2) (regs [(2, 1)]) = .next t ∧ (t.i != (regs [(2, 1)]).i) = true) ∧
      (∃ t, exec (.ldF 2) (regs [(2, 1)]) = .next t ∧ (t.i != (regs [(2, 1)]).i) = true) :=
  ⟨next_of_any (by decide), next_of_any (by decide), next_of_any (by decide)⟩

theorem wit_writeVF :
    (∃ t, exec (.addReg 1 1) (regs [(1, 0x80)]) = .next t ∧ (t.getV 15 != 0) = true) ∧
      (∃ t, exec (.drw 0 0 0) (regs [(15, 1)]) = .next t ∧ (t.getV 15 != 1) = true) ∧
      (∃ t, exec (.ldByte 15 9) State.reset = .next t ∧ (t.getV 15 != 0) = true) ∧
      (∃ t, exec (.ldReg 15 1) (regs [(1, 1)]) = .next t ∧ (t.getV 15 != 0) = true) ∧
      (∃ t, exec (.ldVxDT 15) (State.reset.setDt 1) = .next t ∧ (t.getV 15 != 0) = true) ∧
      (∃ t, exec (.loadRegs 15) State.reset = .next t ∧ (t.getV 15 != 0) = true) :=
  ⟨next_of_any (by decide), next_of_any (by decide), next_of_any (by decide), next_of_any (by decide),
    next_of_any (by decide), next_of_any (by decide)⟩

theorem wit_writeDT : ∃ t, exec (.ldDTVx 3) (regs [(3, 1)]) = .next t ∧ (t.dt != (regs [(3, 1)]).dt) = true :=
  next_of_any (by decide)

/-- The states differ in slot 5, of which `sp` of 1 says that it is not occupied. -/
theorem wit_stale : SameButStale (State.reset.setStack 1 State.reset.stack) (State.reset.setStack 1 (State.reset.stack.set 5 7)) ∧
    State.reset.setStack 1 State.reset.stack ≠ State.reset.setStack 1 (State.reset.stack.set 5 7) :=
  ⟨⟨by decide, rfl⟩, by decide⟩

theorem wit_tick : ({ State.reset with agenda := [.tick, .tick], run := .halted .invalidKey } : State).agenda = .tick :: [.tick] := rfl

theorem wit_key : ({ State.reset with agenda := [.key 15 true] } : State).agenda = .key 15 true :: [] := rfl

/-- A LOAD of 3584 bytes fits, one of 3585 does not. -/
theorem wit_load :
    ({ State.reset with agenda := [.load [0x12, 0x34]] } : State).agenda = .load [0x12, 0x34] :: [] ∧
      State.reset.loadOpen = true ∧ 512 + (List.replicate 3584 (1 : Byte)).length ≤ 4096 ∧
      4096 < 512 + (List.replicate 3585 (1 : Byte)).length :=
  ⟨rfl, rfl, by rw [List.length_replicate], by rw [List.length_replicate]; decide⟩

theorem wit_loadAfter :
    (∃ t, happen (.step none) State.reset = .next t) ∧ (∃ t, happen (.load [0x12, 0x34]) State.reset = .next t) :=
  ⟨next_of_isSome (by decide), next_of_isSome (by decide)⟩

theorem wit_reset : ({ State.reset with agenda := [.reset, .tick], run := .halted .outOfBounds } : State).agenda =
    .reset :: [.tick] := rfl

theorem wit_call : (State.reset.setStack 15 State.reset.stack).sp.val < 16 ∧ (State.reset.setStack 16 State.reset.stack).sp.val = 16 := by
  decide

theorem wit_ret : 0 < (State.reset.setStack 1 State.reset.stack).sp.val ∧ State.reset.sp.val = 0 := by decide

theorem wit_nested : State.reset.sp.val + (List.replicate 16 (0x300 : Addr)).length ≤ 16 ∧
    16 ≤ (List.replicate 16 (0x300 : Addr)).length ∧ 1 ≤ 16 := by decide

theorem wit_keySkips : ((regs [(3, 15)]).getV 3).toNat < 16 ∧ 16 ≤ ((regs [(3, 16)]).getV 3).toNat := by decide

/-- The clause of the flag-defining operations for a destination that is not `VF`. -/
theorem wit_notVF : (14 : Nibble) ≠ 15 := by decide

theorem wit_bcd : effAddr (State.reset.setI 0xFFD) 2 < 4096 ∧ 4096 ≤ effAddr (State.reset.setI 0xFFE) 2 := by decide

theorem wit_bulk : effAddr (State.reset.setI 0xFF0) (15 : Nibble).toNat < 4096 ∧ 4096 ≤ effAddr (State.reset.setI 0xFF1) (15 : Nibble).toNat ∧
    effAddr (State.reset.setI 0xFFF) (0 : Nibble).toNat < 4096 := by decide

theorem wit_draw :
    (0 : Nibble).toNat = 0 ∧ effAddr (State.reset.setI 0xFFE) (2 : Nibble).toNat ≤ 4096 ∧
      (1 ≤ (3 : Nibble).toNat ∧ 4096 < effAddr (State.reset.setI 0xFFE) (3 : Nibble).toNat) := by decide

theorem wit_drawTwice : (0 : Nibble) ≠ 15 ∧ (14 : Nibble) ≠ 15 ∧ effAddr (State.reset.setI 0xFFF) (1 : Nibble).toNat ≤ 4096 := by decide

theorem wit_random :
    ({ State.reset with draw := some 0xA7 } : State).draw = some 0xA7 ∧ (0x0F : Byte).getLsbD 7 = false ∧
      ∀ j, (0x0F : Byte).getLsbD j = false → (0x05 : Byte).getLsbD j = false := by
  refine ⟨rfl, by decide, fun j h => ?_⟩
  have e : ∀ k : Fin 8, (0x0F : Byte).getLsbD k.val = false → (0x05 : Byte).getLsbD k.val = false := by decide
  by_cases hj : j < 8
  · exact e ⟨j, hj⟩ h
  · exact BitVec.getLsbD_of_ge _ _ (by omega)

theorem wit_unknown : isListed 0x00E1 = false ∧ isListed 0xFFFF = false := by decide

end Sys2Proof.Tests
end

section
/-! PROOFS. Memory, fetch and the program image (spec/20_memory.md, rules R62, R63 and R69). -/

set_option autoImplicit false

namespace Sys2Proof.Machine

theorem memRead_ok {a : Nat} (h : a < 4096) (s : State) : memRead a s = .ok (s.byteAt a) := by
  rw [memRead_eq, if_pos h]

theorem memRead_error {a : Nat} (h : 4096 ≤ a) (s : State) : memRead a s = .error .outOfBounds := by
  rw [memRead_eq, if_neg (Nat.not_lt.2 h)]

theorem memWrite_ok {a : Nat} (h : a < 4096) (v : Byte) (s : State) :
    memWrite a v s = .ok (s.setMem (Memory.put s.mem a v)) := by
  rw [memWrite_eq, if_pos h]

theorem memWrite_error {a : Nat} (h : 4096 ≤ a) (v : Byte) (s : State) :
    memWrite a v s = .error .outOfBounds := by
  rw [memWrite_eq, if_neg (Nat.not_lt.2 h)]

theorem setMem_frame (m : List Host.Cell) (s : State) : Frame [.mem] s (s.setMem m) := by
  intro p hp
  cases p
  case mem => exact absurd (List.mem_singleton.2 rfl) hp
  all_goals simp [Unchanged]

/-- Settles O10: the written byte is the one `Memory.get_put` finds, in a state that differs from `s` by `setMem` alone. -/
theorem memoryReadsWhatWasWritten : Obligations.MemoryReadsWhatWasWritten := by
  unfold Obligations.MemoryReadsWhatWasWritten
  intro a v s
  refine ⟨fun h => ⟨memRead_ok h s, s.setMem (Memory.put s.mem a v), memWrite_ok h v s, ?_, setMem_frame _ s, ?_⟩,
    fun h => ⟨memRead_error h s, memWrite_error h v s⟩⟩
  · rw [memRead_ok h, State.setMem_byteAt, Memory.get_put_same]
  · intro b hb
    exact Memory.get_put_ne s.mem v hb

/-! ### Fetch and the program image -/

theorem fetch_ok {s : State} (h : s.pc.toNat + 1 < 4096) : fetch s = .ok (wordAtPc s) := by
  rw [fetch_eq, if_pos h]

/-- Appending two bytes is big-endian composition (R69). -/
theorem toNat_append_bytes (b0 b1 : Byte) : (b0 ++ b1 : Word).toNat = b0.toNat * 256 + b1.toNat := by
  rw [BitVec.toNat_append, ← Nat.shiftLeft_add_eq_or_of_lt b1.isLt, Nat.shiftLeft_eq]

theorem wordAtPc_toNat (s : State) :
    (wordAtPc s).toNat = (s.byteAt s.pc.toNat).toNat * 256 + (s.byteAt (s.pc.toNat + 1)).toNat :=
  toNat_append_bytes _ _

/-- A LOAD that fits, into a core that may be loaded (R41): the image stands at LOAD_ADDR, every other byte and memory's
canonical form are kept, and besides memory only the model's record of the event is written. -/
theorem loadEvent_ok {bytes : List Byte} {s : State} (hopen : s.loadOpen = true) (hfit : 512 + bytes.length ≤ 4096) :
    ∃ m, loadEvent bytes s = .next (({ s with report := none, loadOpen := false } : State).setMem m) ∧
      (∀ a, Memory.get m a =
        if 512 ≤ a ∧ a < 512 + bytes.length then bytes.getD (a - 512) 0 else s.byteAt a) ∧
      (Memory.wf s.mem = true → Memory.wf m = true) := by
  obtain ⟨m, hwrite, hget, hwf⟩ :=
    writeRange_ok (s := { s with report := none, loadOpen := false }) (Or.inr hfit)
  refine ⟨m, ?_, hget, hwf⟩
  simp [loadEvent, hopen, hfit, hwrite]

/-- Settles O11: a fetch is `wordAtPc`, which is big-endian, and after a LOAD the two bytes at LOAD_ADDR are the first
two of the image. -/
theorem fetchAndImageAreBigEndian : Obligations.FetchAndImageAreBigEndian := by
  unfold Obligations.FetchAndImageAreBigEndian
  refine ⟨fun s h => ⟨wordAtPc s, fetch_ok h, wordAtPc_toNat s⟩, fun s b0 b1 rest hopen hlen hpc => ?_⟩
  have hfit : 512 + (b0 :: b1 :: rest).length ≤ 4096 := by simp only [List.length_cons]; omega
  obtain ⟨m, hload, hget, -⟩ := loadEvent_ok hopen hfit
  have hfirst : Memory.get m 512 = b0 := by simp [hget]
  have hsecond : Memory.get m 513 = b1 := by
    rw [hget, if_pos (by simp only [List.length_cons]; omega)]
    rfl
  refine ⟨_, _, hload, fetch_ok (by simp [hpc]), ?_⟩
  simp [wordAtPc_toNat, hpc, hfirst, hsecond]

end Sys2Proof.Machine
end

section
/-! PROOFS. Control transfer (spec/40_flow.md, rule R124). -/

set_option autoImplicit false

namespace Sys2Proof.Machine

@[simp] theorem immAddr_toNat (nnn : Addr) : (immAddr nnn).toNat = nnn.toNat :=
  BitVec.toNat_setWidth_of_le (by decide)

theorem setPc_frame (w : Word) (s : State) : Frame [.pc] s (s.setPc w) := by
  intro p hp
  cases p
  case pc => exact absurd (List.mem_singleton.2 rfl) hp
  all_goals simp [Unchanged]

theorem exec_jp (nnn : Addr) (s : State) : exec (.jp nnn) s = .next (s.setPc (immAddr nnn)) := rfl

/-- Settles O32: the next state differs from `s` by `setPc` alone, and extending nnn to a word keeps its value. -/
theorem jumpGoesToItsAddress : Obligations.JumpGoesToItsAddress := by
  unfold Obligations.JumpGoesToItsAddress
  intro nnn s
  exact ⟨s.setPc (immAddr nnn), exec_jp nnn s, setPc_frame _ s, immAddr_toNat nnn⟩

end Sys2Proof.Machine
end

section
/-! PROOFS. Register skips (spec/41_skip.md, rules R131 to R134). -/

set_option autoImplicit false

namespace Sys2Proof.Machine

theorem skipIf_frame (c : Bool) (s : State) : Frame [.pc] s (skipIf c s) := by
  rw [skipIf_eq]
  exact setPc_frame _ s

/-- Every instruction that is a conditional skip completes: it writes `pc` alone, 4 or 2 further. -/
theorem completes_of_exec_skipIf {i : Instr} {s : State} {c : Bool} (h : exec i s = .next (skipIf c s)) :
    Completes i s [.pc] (Advances (if c then 4 else 2) s) :=
  ⟨skipIf c s, h, skipIf_frame c s, skipIf_advances c s⟩

theorem exec_seByte (x : Nibble) (kk : Byte) (s : State) :
    exec (.seByte x kk) s = .next (skipIf (s.getV x == kk) s) := rfl

theorem exec_sneByte (x : Nibble) (kk : Byte) (s : State) :
    exec (.sneByte x kk) s = .next (skipIf (s.getV x != kk) s) := rfl

theorem exec_seReg (x y : Nibble) (s : State) :
    exec (.seReg x y) s = .next (skipIf (s.getV x == s.getV y) s) := rfl

theorem exec_sneReg (x y : Nibble) (s : State) :
    exec (.sneReg x y) s = .next (skipIf (s.getV x != s.getV y) s) := rfl

/-- A skip on equality moves `pc` by 4 where the bytes are equal. -/
theorem completes_of_exec_skipIf_beq {i : Instr} {s : State} {a b : Byte}
    (h : exec i s = .next (skipIf (a == b) s)) : Completes i s [.pc] (Advances (if a = b then 4 else 2) s) := by
  simpa only [beq_iff_eq] using completes_of_exec_skipIf h

/-- A skip on inequality moves `pc` by 2 where the bytes are equal: the branches of its condition change places. -/
theorem completes_of_exec_skipIf_bne {i : Instr} {s : State} {a b : Byte}
    (h : exec i s = .next (skipIf (a != b) s)) : Completes i s [.pc] (Advances (if a = b then 2 else 4) s) := by
  simpa only [bne_iff_ne, ne_eq, ite_not] using completes_of_exec_skipIf h

/-- Settles O37: each of the four is a conditional skip, on equality or on inequality of two bytes. -/
theorem registerSkipsMovePcByFourOrTwo : Obligations.RegisterSkipsMovePcByFourOrTwo := by
  unfold Obligations.RegisterSkipsMovePcByFourOrTwo
  intro x y kk s
  exact ⟨completes_of_exec_skipIf_beq (exec_seByte x kk s), completes_of_exec_skipIf_bne (exec_sneByte x kk s),
    completes_of_exec_skipIf_beq (exec_seReg x y s), completes_of_exec_skipIf_bne (exec_sneReg x y s)⟩

end Sys2Proof.Machine
end

section
/-! PROOFS. Immediates (spec/42_immediate.md, rules R140 and R141), with what every instruction that writes one register
and advances does. -/

set_option autoImplicit false

namespace Sys2Proof.Machine

theorem Unchanged.trans {s t u : State} {p : Part} (h : Unchanged s t p) (h' : Unchanged t u p) : Unchanged s u p := by
  cases p
  case regs => exact fun z => (h' z).trans (h z)
  case mem => exact fun a => (h' a).trans (h a)
  case stack => exact ⟨h'.1.trans h.1, h'.2.trans h.2⟩
  case host =>
    obtain ⟨agenda, draw, loadOpen⟩ := h
    obtain ⟨agenda', draw', loadOpen'⟩ := h'
    exact ⟨agenda'.trans agenda, draw'.trans draw, loadOpen'.trans loadOpen⟩
  all_goals exact Eq.trans h' h

/-- Two writes in a row change at most what one of them changes. -/
theorem Frame.trans {changed changed' : List Part} {s t u : State} (h : Frame changed s t) (h' : Frame changed' t u) :
    Frame (changed ++ changed') s u := fun p hp =>
  (h p fun hmem => hp (List.mem_append_left _ hmem)).trans (h' p fun hmem => hp (List.mem_append_right _ hmem))

theorem setV_frame (x : Nibble) (b : Byte) (s : State) : Frame [.regs] s (s.setV x b) := by
  intro p hp
  cases p
  case regs => exact absurd (List.mem_singleton.2 rfl) hp
  all_goals simp [Unchanged]

theorem setV_regsExcept (x : Nibble) (b : Byte) (s : State) : RegsExcept [x] s (s.setV x b) :=
  fun _ hz => State.setV_getV_ne s (List.ne_of_not_mem_cons hz) b

@[simp] theorem advance_getV (s : State) (z : Nibble) : (advance s).getV z = s.getV z := State.setPc_getV s s.nextPc z

theorem advance_frame (s : State) : Frame [.pc] s (advance s) := setPc_frame s.nextPc s

/-- Every instruction that gives `V[x]` the byte `b` and advances completes, and writes no other register: `VF` only
where x = F. -/
theorem completes_of_exec_advance_setV {i : Instr} {s : State} {x : Nibble} {b : Byte}
    (h : exec i s = .next (advance (s.setV x b))) :
    Completes i s [.regs, .pc] fun t => t.getV x = b ∧ RegsExcept [x] s t ∧ Advances 2 s t := by
  refine ⟨advance (s.setV x b), h, (setV_frame x b s).trans (advance_frame _), ?_, fun z hz => ?_, ?_⟩
  · rw [advance_getV, State.setV_getV_same]
  · rw [advance_getV, setV_regsExcept x b s z hz]
  · exact advance_advances (s.setV x b)

theorem exec_ldByte (x : Nibble) (kk : Byte) (s : State) : exec (.ldByte x kk) s = .next (advance (s.setV x kk)) := rfl

theorem exec_addByte (x : Nibble) (kk : Byte) (s : State) :
    exec (.addByte x kk) s = .next (advance (s.setV x (s.getV x + kk))) := rfl

/-- Settles O39: the instruction writes kk to `V[x]` and advances. -/
theorem loadImmediateSetsOneRegister : Obligations.LoadImmediateSetsOneRegister := by
  unfold Obligations.LoadImmediateSetsOneRegister
  intro x kk s
  exact completes_of_exec_advance_setV (exec_ldByte x kk s)

/-- Settles O40: the instruction writes the sum of two bytes to `V[x]` and advances, and bytes add modulo 256. -/
theorem addImmediateWrapsAndWritesNoFlag : Obligations.AddImmediateWrapsAndWritesNoFlag := by
  unfold Obligations.AddImmediateWrapsAndWritesNoFlag
  intro x kk s
  obtain ⟨t, hexec, hframe, hsum, hregs, hpc⟩ := completes_of_exec_advance_setV (exec_addByte x kk s)
  exact ⟨t, hexec, hframe, by rw [hsum, BitVec.toNat_add], hregs, hpc⟩

end Sys2Proof.Machine
end

section
/-! PROOFS. The ALU family (spec/43_alu.md, rule R151). -/

set_option autoImplicit false

namespace Sys2Proof.Machine

theorem exec_ldReg (x y : Nibble) (s : State) : exec (.ldReg x y) s = .next (advance (s.setV x (s.getV y))) := rfl

/-- Settles O41: the instruction writes `V[y]` to `V[x]` and advances. -/
theorem moveCopiesOneRegister : Obligations.MoveCopiesOneRegister := by
  unfold Obligations.MoveCopiesOneRegister
  intro x y s
  exact completes_of_exec_advance_setV (exec_ldReg x y s)

end Sys2Proof.Machine
end

section
/-! PROOFS. The index register (spec/44_index_memory.md, rule R171), with what every instruction that writes `I` and
advances does. -/

set_option autoImplicit false

namespace Sys2Proof.Machine

theorem setI_frame (w : Word) (s : State) : Frame [.index] s (s.setI w) := by
  intro p hp
  cases p
  case index => exact absurd (List.mem_singleton.2 rfl) hp
  all_goals simp [Unchanged]

@[simp] theorem advance_i (s : State) : (advance s).i = s.i := State.setPc_i s s.nextPc

/-- Every instruction that gives `I` the word `w` and advances completes, and writes no register (D11). -/
theorem completes_of_exec_advance_setI {i : Instr} {s : State} {w : Word}
    (h : exec i s = .next (advance (s.setI w))) :
    Completes i s [.index, .pc] fun t => t.i = w ∧ Advances 2 s t := by
  refine ⟨advance (s.setI w), h, (setI_frame w s).trans (advance_frame _), ?_, ?_⟩
  · rw [advance_i, State.setI_i]
  · exact advance_advances (s.setI w)

theorem exec_ldI (nnn : Addr) (s : State) : exec (.ldI nnn) s = .next (advance (s.setI (immAddr nnn))) := rfl

/-- Settles O47: the instruction writes nnn, extended to a word, to `I` and advances, and extending keeps the value. -/
theorem loadIndexSetsI : Obligations.LoadIndexSetsI := by
  unfold Obligations.LoadIndexSetsI
  intro nnn s
  obtain ⟨t, hexec, hframe, hindex, hpc⟩ := completes_of_exec_advance_setI (exec_ldI nnn s)
  exact ⟨t, hexec, hframe, by rw [hindex, immAddr_toNat], hpc⟩

end Sys2Proof.Machine
end

section
/-! PROOFS. The framebuffer (spec/45_display.md, rule R180). -/

set_option autoImplicit false

namespace Sys2Proof.Machine

theorem setFb_frame (fb : Vector (BitVec 64) 32) (s : State) : Frame [.fb] s (s.setFb fb) := by
  intro p hp
  cases p
  case fb => exact absurd (List.mem_singleton.2 rfl) hp
  all_goals simp [Unchanged]

@[simp] theorem advance_cell (s : State) (c : Nat) : (advance s).cell c = s.cell c := State.setPc_cell s s.nextPc c

theorem fbCell_replicate_zero (c : Nat) : fbCell (Vector.replicate 32 0) c = false := by
  unfold fbCell
  split
  · rw [Vector.getElem_replicate]
    exact BitVec.getLsbD_zero
  · rfl

theorem exec_cls (s : State) : exec .cls s = .next (advance (s.setFb (Vector.replicate 32 0))) := rfl

/-- Settles O54: the instruction writes a framebuffer of 32 zero rows and advances, and every cell of it is 0. -/
theorem clearZeroesEveryCell : Obligations.ClearZeroesEveryCell := by
  unfold Obligations.ClearZeroesEveryCell
  intro s
  refine ⟨advance (s.setFb (Vector.replicate 32 0)), exec_cls s, (setFb_frame _ s).trans (advance_frame _),
    fun c _ => ?_, ?_⟩
  · rw [advance_cell, State.setFb_cell, fbCell_replicate_zero]
  · exact advance_advances (s.setFb (Vector.replicate 32 0))

end Sys2Proof.Machine
end

section
/-! PROOFS. The delay timer (spec/46_timer_key_random.md, rules R191 and R192). -/

set_option autoImplicit false

namespace Sys2Proof.Machine

theorem setDt_frame (b : Byte) (s : State) : Frame [.dt] s (s.setDt b) := by
  intro p hp
  cases p
  case dt => exact absurd (List.mem_singleton.2 rfl) hp
  all_goals simp [Unchanged]

@[simp] theorem advance_dt (s : State) : (advance s).dt = s.dt := State.setPc_dt s s.nextPc

theorem exec_ldVxDT (x : Nibble) (s : State) : exec (.ldVxDT x) s = .next (advance (s.setV x s.dt)) := rfl

theorem exec_ldDTVx (x : Nibble) (s : State) : exec (.ldDTVx x) s = .next (advance (s.setDt (s.getV x))) := rfl

/-- Settles O58: `Fx07` writes `DT` to `V[x]`, `Fx15` writes `V[x]` to `DT`, and both advance. -/
theorem timerMovesCopyTheDelayTimer : Obligations.TimerMovesCopyTheDelayTimer := by
  unfold Obligations.TimerMovesCopyTheDelayTimer
  intro x s
  constructor
  · exact completes_of_exec_advance_setV (exec_ldVxDT x s)
  · refine ⟨advance (s.setDt (s.getV x)), exec_ldDTVx x s, (setDt_frame _ s).trans (advance_frame _), ?_, ?_⟩
    · rw [advance_dt, State.setDt_dt]
    · exact advance_advances (s.setDt (s.getV x))

end Sys2Proof.Machine
end

section
/-! PROOFS. The unknown instruction (spec/47_unknown.md, rule R200). -/

set_option autoImplicit false

namespace Sys2Proof.Machine

/-- A frame may be weakened: more parts, in any order, may be listed as changed. -/
theorem Frame.mono {changed changed' : List Part} {s t : State} (h : Frame changed s t) (hsub : changed ⊆ changed') :
    Frame changed' s t := fun p hp => h p fun hmem => hp (hsub hmem)

theorem setReport_frame (r : Option Report) (s : State) : Frame [.report] s (s.setReport r) := by
  intro p hp
  cases p
  case report => exact absurd (List.mem_singleton.2 rfl) hp
  all_goals simp [Unchanged]

@[simp] theorem advance_report (s : State) : (advance s).report = s.report := State.setPc_report s s.nextPc

theorem exec_unknown (w : Word) (s : State) :
    exec (.unknown w) s = .next (advance (s.setReport (some ⟨s.pc, w⟩))) := rfl

/-- Settles O60: the instruction puts out the report and advances, and each of the two writes has its frame. `exec` does
not look at `w` again, so that `w` is unlisted is not needed here: the decoder sees to it. -/
theorem unknownIsAReportedNoOp : Obligations.UnknownIsAReportedNoOp := by
  unfold Obligations.UnknownIsAReportedNoOp
  intro w s _
  have hframe : Frame [.report, .pc] s (advance (s.setReport (some ⟨s.pc, w⟩))) :=
    (setReport_frame _ s).trans (advance_frame _)
  refine ⟨advance (s.setReport (some ⟨s.pc, w⟩)), exec_unknown w s, hframe.mono (List.Perm.swap _ _ _).subset, ?_, ?_⟩
  · rw [advance_report, State.setReport_report]
  · exact advance_advances (s.setReport (some ⟨s.pc, w⟩))

end Sys2Proof.Machine
end

section
/-! PROOFS. Decoding and encoding (spec/30_encoding.md, rules R90 to R99): the decoder is undone by the encoder family by
family, and the words it answers the catch-all for are those of no row. -/

set_option autoImplicit false

namespace Sys2Proof

/-! ### The fields of encoded words, and words from their fields -/

@[simp] theorem fieldOp_encodeNNN (op : Nibble) (nnn : Addr) : fieldOp (encodeNNN op nnn) = op :=
  (fields_encodeNNN op nnn).1

@[simp] theorem fieldNNN_encodeNNN (op : Nibble) (nnn : Addr) : fieldNNN (encodeNNN op nnn) = nnn :=
  (fields_encodeNNN op nnn).2

@[simp] theorem fieldOp_encodeXKK (op x : Nibble) (kk : Byte) : fieldOp (encodeXKK op x kk) = op :=
  (fields_encodeXKK op x kk).1

@[simp] theorem fieldX_encodeXKK (op x : Nibble) (kk : Byte) : fieldX (encodeXKK op x kk) = x :=
  (fields_encodeXKK op x kk).2.1

@[simp] theorem fieldKK_encodeXKK (op x : Nibble) (kk : Byte) : fieldKK (encodeXKK op x kk) = kk :=
  (fields_encodeXKK op x kk).2.2

@[simp] theorem fieldOp_encodeXYN (op x y n : Nibble) : fieldOp (encodeXYN op x y n) = op :=
  (fields_encodeXYN op x y n).1

@[simp] theorem fieldX_encodeXYN (op x y n : Nibble) : fieldX (encodeXYN op x y n) = x :=
  (fields_encodeXYN op x y n).2.1

@[simp] theorem fieldY_encodeXYN (op x y n : Nibble) : fieldY (encodeXYN op x y n) = y :=
  (fields_encodeXYN op x y n).2.2.1

@[simp] theorem fieldN_encodeXYN (op x y n : Nibble) : fieldN (encodeXYN op x y n) = n :=
  (fields_encodeXYN op x y n).2.2.2

theorem encodeNNN_of_fields {w : Word} {op : Nibble} (hop : fieldOp w = op) : encodeNNN op (fieldNNN w) = w := by
  rw [← hop]
  exact (encode_fields w).1

theorem encodeXKK_of_fields {w : Word} {op : Nibble} {kk : Byte} (hop : fieldOp w = op) (hkk : fieldKK w = kk) :
    encodeXKK op (fieldX w) kk = w := by
  rw [← hop, ← hkk]
  exact (encode_fields w).2.1

theorem encodeXYN_of_fields {w : Word} {op n : Nibble} (hop : fieldOp w = op) (hn : fieldN w = n) :
    encodeXYN op (fieldX w) (fieldY w) n = w := by
  rw [← hop, ← hn]
  exact (encode_fields w).2.2

theorem fieldOp_eq_iff (w : Word) (op : Nibble) : fieldOp w = op ↔ w.toNat / 4096 = op.toNat := by
  rw [← BitVec.toNat_inj, (fields_toNat w).1]

theorem fieldN_eq_iff (w : Word) (n : Nibble) : fieldN w = n ↔ w.toNat % 16 = n.toNat := by
  obtain ⟨-, -, -, hn, -, -⟩ := fields_toNat w
  rw [← BitVec.toNat_inj, hn]

theorem fieldKK_eq_iff (w : Word) (kk : Byte) : fieldKK w = kk ↔ w.toNat % 256 = kk.toNat := by
  obtain ⟨-, -, -, -, hkk, -⟩ := fields_toNat w
  rw [← BitVec.toNat_inj, hkk]

/-! ### Encoding what was decoded -/

theorem encode_decodeFamily0 (w : Word) : encode (decodeFamily0 w) = w := by
  unfold decodeFamily0
  split_ifs with hcls hret
  · exact hcls.symm
  · exact hret.symm
  · rfl

theorem encode_decodeIfN0 {w : Word} {i : Instr} (h : fieldN w = 0#4 → encode i = w) : encode (decodeIfN0 w i) = w := by
  unfold decodeIfN0
  split_ifs with hn
  · exact h hn
  · rfl

theorem encode_decodeFamily8 {w : Word} (hop : fieldOp w = 8#4) : encode (decodeFamily8 w) = w := by
  simp only [decodeFamily8]
  split_ifs
  case neg => rfl
  all_goals exact encodeXYN_of_fields hop (by assumption)

theorem encode_decodeFamilyE {w : Word} (hop : fieldOp w = 14#4) : encode (decodeFamilyE w) = w := by
  simp only [decodeFamilyE]
  split_ifs
  case neg => rfl
  all_goals exact encodeXKK_of_fields hop (by assumption)

theorem encode_decodeFamilyF {w : Word} (hop : fieldOp w = 15#4) : encode (decodeFamilyF w) = w := by
  simp only [decodeFamilyF]
  split_ifs
  case neg => rfl
  all_goals exact encodeXKK_of_fields hop (by assumption)

/-! ### The words of no row -/

theorem isListed_iff (w : Word) : isListed w = true ↔ ∃ r ∈ opcodeMap, r.matches w = true := List.any_eq_true

/-- The unlisted words by family (R99). -/
theorem isListed_eq_false_iff (w : Word) : isListed w = false ↔
    (w.toNat / 4096 = 0 ∧ w.toNat ≠ 0x00E0 ∧ w.toNat ≠ 0x00EE) ∨
    (w.toNat / 4096 = 5 ∧ w.toNat % 16 ≠ 0) ∨
    (w.toNat / 4096 = 8 ∧ w.toNat % 16 ∈ [8, 9, 10, 11, 12, 13, 15]) ∨
    (w.toNat / 4096 = 9 ∧ w.toNat % 16 ≠ 0) ∨
    (w.toNat / 4096 = 14 ∧ w.toNat % 256 ∉ [0x9E, 0xA1]) ∨
    (w.toNat / 4096 = 15 ∧ w.toNat % 256 ∉ [0x07, 0x15, 0x1E, 0x29, 0x33, 0x55, 0x65]) := by
  have hop : w.toNat / 4096 < 16 := by have := w.isLt; omega
  rw [← Bool.not_eq_true, isListed_iff]
  simp [opcodeMap, matches_op, matches_op_n, matches_op_kk, matches_all]
  interval_cases h : w.toNat / 4096 <;> simp <;> omega

/-! ### The catch-all is decoded for the words of no row only -/

theorem wellFormed_unknown_iff (w : Word) : (Instr.unknown w).wellFormed = true ↔ isListed w = false := by
  simp [Instr.wellFormed]

theorem decodeFamily0_wellFormed {w : Word} (hop : fieldOp w = 0#4) : (decodeFamily0 w).wellFormed = true := by
  unfold decodeFamily0
  split_ifs with hcls hret
  · rfl
  · rfl
  · rw [wellFormed_unknown_iff, isListed_eq_false_iff]
    rw [fieldOp_eq_iff] at hop
    exact .inl ⟨hop, fun h => hcls (BitVec.eq_of_toNat_eq h), fun h => hret (BitVec.eq_of_toNat_eq h)⟩

theorem decodeIfN0_wellFormed {w : Word} {i : Instr} (hop : fieldOp w = 5#4 ∨ fieldOp w = 9#4)
    (hi : i.wellFormed = true) : (decodeIfN0 w i).wellFormed = true := by
  unfold decodeIfN0
  split_ifs with hn
  · exact hi
  · rw [wellFormed_unknown_iff, isListed_eq_false_iff]
    simp only [fieldOp_eq_iff, fieldN_eq_iff, BitVec.toNat_ofNat] at hop hn
    omega

theorem decodeFamily8_wellFormed {w : Word} (hop : fieldOp w = 8#4) : (decodeFamily8 w).wellFormed = true := by
  simp only [decodeFamily8]
  split_ifs
  case neg =>
    rw [wellFormed_unknown_iff, isListed_eq_false_iff]
    simp only [fieldOp_eq_iff, fieldN_eq_iff, BitVec.toNat_ofNat, List.mem_cons, List.not_mem_nil, or_false] at *
    omega
  all_goals rfl

theorem decodeFamilyE_wellFormed {w : Word} (hop : fieldOp w = 14#4) : (decodeFamilyE w).wellFormed = true := by
  simp only [decodeFamilyE]
  split_ifs
  case neg =>
    rw [wellFormed_unknown_iff, isListed_eq_false_iff]
    simp only [fieldOp_eq_iff, fieldKK_eq_iff, BitVec.toNat_ofNat, List.mem_cons, List.not_mem_nil, or_false] at *
    omega
  all_goals rfl

theorem decodeFamilyF_wellFormed {w : Word} (hop : fieldOp w = 15#4) : (decodeFamilyF w).wellFormed = true := by
  simp only [decodeFamilyF]
  split_ifs
  case neg =>
    rw [wellFormed_unknown_iff, isListed_eq_false_iff]
    simp only [fieldOp_eq_iff, fieldKK_eq_iff, BitVec.toNat_ofNat, List.mem_cons, List.not_mem_nil, or_false] at *
    omega
  all_goals rfl

/-! ### The decoder by `op` -/

section
variable {w : Word}

theorem decode_of_op_0 (h : fieldOp w = 0#4) : decode w = decodeFamily0 w := by simp [decode, h]
theorem decode_of_op_1 (h : fieldOp w = 1#4) : decode w = .jp (fieldNNN w) := by simp [decode, h]
theorem decode_of_op_2 (h : fieldOp w = 2#4) : decode w = .call (fieldNNN w) := by simp [decode, h]
theorem decode_of_op_3 (h : fieldOp w = 3#4) : decode w = .seByte (fieldX w) (fieldKK w) := by simp [decode, h]
theorem decode_of_op_4 (h : fieldOp w = 4#4) : decode w = .sneByte (fieldX w) (fieldKK w) := by simp [decode, h]
theorem decode_of_op_5 (h : fieldOp w = 5#4) : decode w = decodeIfN0 w (.seReg (fieldX w) (fieldY w)) := by simp [decode, h]
theorem decode_of_op_6 (h : fieldOp w = 6#4) : decode w = .ldByte (fieldX w) (fieldKK w) := by simp [decode, h]
theorem decode_of_op_7 (h : fieldOp w = 7#4) : decode w = .addByte (fieldX w) (fieldKK w) := by simp [decode, h]
theorem decode_of_op_8 (h : fieldOp w = 8#4) : decode w = decodeFamily8 w := by simp [decode, h]
theorem decode_of_op_9 (h : fieldOp w = 9#4) : decode w = decodeIfN0 w (.sneReg (fieldX w) (fieldY w)) := by simp [decode, h]
theorem decode_of_op_10 (h : fieldOp w = 10#4) : decode w = .ldI (fieldNNN w) := by simp [decode, h]
theorem decode_of_op_11 (h : fieldOp w = 11#4) : decode w = .jpV0 (fieldNNN w) := by simp [decode, h]
theorem decode_of_op_12 (h : fieldOp w = 12#4) : decode w = .rnd (fieldX w) (fieldKK w) := by simp [decode, h]
theorem decode_of_op_13 (h : fieldOp w = 13#4) : decode w = .drw (fieldX w) (fieldY w) (fieldN w) := by simp [decode, h]
theorem decode_of_op_14 (h : fieldOp w = 14#4) : decode w = decodeFamilyE w := by simp [decode, h]
theorem decode_of_op_15 (h : fieldOp w = 15#4) : decode w = decodeFamilyF w := by simp [decode, h]

end

theorem nibble_cases (op : Nibble) : op = 0#4 ∨ op = 1#4 ∨ op = 2#4 ∨ op = 3#4 ∨ op = 4#4 ∨ op = 5#4 ∨ op = 6#4 ∨
    op = 7#4 ∨ op = 8#4 ∨ op = 9#4 ∨ op = 10#4 ∨ op = 11#4 ∨ op = 12#4 ∨ op = 13#4 ∨ op = 14#4 ∨ op = 15#4 := by
  decide +revert

/-- The branches of the decoder, one by one: what it answers encodes to the word and is well-formed. -/
theorem decode_spec (w : Word) : encode (decode w) = w ∧ (decode w).wellFormed = true := by
  obtain h | h | h | h | h | h | h | h | h | h | h | h | h | h | h | h := nibble_cases (fieldOp w)
  · rw [decode_of_op_0 h]; exact ⟨encode_decodeFamily0 w, decodeFamily0_wellFormed h⟩
  · rw [decode_of_op_1 h]; exact ⟨encodeNNN_of_fields h, rfl⟩
  · rw [decode_of_op_2 h]; exact ⟨encodeNNN_of_fields h, rfl⟩
  · rw [decode_of_op_3 h]; exact ⟨encodeXKK_of_fields h rfl, rfl⟩
  · rw [decode_of_op_4 h]; exact ⟨encodeXKK_of_fields h rfl, rfl⟩
  · rw [decode_of_op_5 h]; exact ⟨encode_decodeIfN0 (encodeXYN_of_fields h), decodeIfN0_wellFormed (.inl h) rfl⟩
  · rw [decode_of_op_6 h]; exact ⟨encodeXKK_of_fields h rfl, rfl⟩
  · rw [decode_of_op_7 h]; exact ⟨encodeXKK_of_fields h rfl, rfl⟩
  · rw [decode_of_op_8 h]; exact ⟨encode_decodeFamily8 h, decodeFamily8_wellFormed h⟩
  · rw [decode_of_op_9 h]; exact ⟨encode_decodeIfN0 (encodeXYN_of_fields h), decodeIfN0_wellFormed (.inr h) rfl⟩
  · rw [decode_of_op_10 h]; exact ⟨encodeNNN_of_fields h, rfl⟩
  · rw [decode_of_op_11 h]; exact ⟨encodeNNN_of_fields h, rfl⟩
  · rw [decode_of_op_12 h]; exact ⟨encodeXKK_of_fields h rfl, rfl⟩
  · rw [decode_of_op_13 h]; exact ⟨encodeXYN_of_fields h rfl, rfl⟩
  · rw [decode_of_op_14 h]; exact ⟨encode_decodeFamilyE h, decodeFamilyE_wellFormed h⟩
  · rw [decode_of_op_15 h]; exact ⟨encode_decodeFamilyF h, decodeFamilyF_wellFormed h⟩

theorem encode_decode (w : Word) : encode (decode w) = w := (decode_spec w).1

theorem decode_wellFormed (w : Word) : (decode w).wellFormed = true := (decode_spec w).2

/-! ### Rows -/

/-- A well-formed instruction's word matches its row, and the catch-all's none: the laws of EncodingRow together. -/
theorem encodingRow (i : Instr) : Laws.EncodingRow.Statement i := by
  cases i
  case cls => exact Laws.EncodingRow.cls
  case ret => exact Laws.EncodingRow.ret
  case jp nnn => exact Laws.EncodingRow.jp nnn
  case call nnn => exact Laws.EncodingRow.call nnn
  case seByte x kk => exact Laws.EncodingRow.seByte x kk
  case sneByte x kk => exact Laws.EncodingRow.sneByte x kk
  case seReg x y => exact Laws.EncodingRow.seReg x y
  case ldByte x kk => exact Laws.EncodingRow.ldByte x kk
  case addByte x kk => exact Laws.EncodingRow.addByte x kk
  case ldReg x y => exact Laws.EncodingRow.ldReg x y
  case orReg x y => exact Laws.EncodingRow.orReg x y
  case andReg x y => exact Laws.EncodingRow.andReg x y
  case xorReg x y => exact Laws.EncodingRow.xorReg x y
  case addReg x y => exact Laws.EncodingRow.addReg x y
  case subReg x y => exact Laws.EncodingRow.subReg x y
  case shr x y => exact Laws.EncodingRow.shr x y
  case subnReg x y => exact Laws.EncodingRow.subnReg x y
  case shl x y => exact Laws.EncodingRow.shl x y
  case sneReg x y => exact Laws.EncodingRow.sneReg x y
  case ldI nnn => exact Laws.EncodingRow.ldI nnn
  case jpV0 nnn => exact Laws.EncodingRow.jpV0 nnn
  case rnd x kk => exact Laws.EncodingRow.rnd x kk
  case drw x y n => exact Laws.EncodingRow.drw x y n
  case skp x => exact Laws.EncodingRow.skp x
  case sknp x => exact Laws.EncodingRow.sknp x
  case ldVxDT x => exact Laws.EncodingRow.ldVxDT x
  case ldDTVx x => exact Laws.EncodingRow.ldDTVx x
  case addI x => exact Laws.EncodingRow.addI x
  case ldF x => exact Laws.EncodingRow.ldF x
  case ldB x => exact Laws.EncodingRow.ldB x
  case storeRegs x => exact Laws.EncodingRow.storeRegs x
  case loadRegs x => exact Laws.EncodingRow.loadRegs x
  case unknown w => exact Laws.EncodingRow.unknown w

theorem row_mem_opcodeMap {i : Instr} {r : OpcodeRow} (h : i.row = some r) : r ∈ opcodeMap := by
  cases i
  case unknown w => cases h
  all_goals
    cases h
    decide

/-- No word belongs to two rows: each two rows differ in a bit that both masks keep. -/
theorem eq_of_matches {w : Word} {q r : OpcodeRow} (hq : q ∈ opcodeMap) (hr : r ∈ opcodeMap)
    (hwq : q.matches w = true) (hwr : r.matches w = true) : q = r := by
  have differ : ∀ q ∈ opcodeMap, ∀ r ∈ opcodeMap, q.value &&& r.mask = r.value &&& q.mask → q = r := by decide
  refine differ q hq r hr ?_
  rw [← beq_iff_eq.1 hwq, ← beq_iff_eq.1 hwr, BitVec.and_assoc, BitVec.and_assoc, BitVec.and_comm q.mask]

theorem decode_row_matches {w : Word} {r : OpcodeRow} (h : (decode w).row = some r) : r.matches w = true := by
  have hrow := encodingRow (decode w) (decode_wellFormed w)
  rwa [h, encode_decode] at hrow

theorem isListed_of_decode_row_none {w : Word} (h : (decode w).row = none) : isListed w = false := by
  have hrow := encodingRow (decode w) (decode_wellFormed w)
  rwa [h, encode_decode] at hrow

theorem decode_eq_unknown_iff (w : Word) : decode w = .unknown w ↔ isListed w = false := by
  constructor
  · intro h
    exact isListed_of_decode_row_none (by rw [h]; rfl)
  · intro hw
    cases hrow : (decode w).row with
    | some r =>
      have hlisted : isListed w = true := (isListed_iff w).2 ⟨r, row_mem_opcodeMap hrow, decode_row_matches hrow⟩
      rw [hw] at hlisted
      cases hlisted
    | none =>
      have henc := encode_decode w
      cases hd : decode w
      case unknown w' => rw [hd] at henc; exact congrArg Instr.unknown henc
      all_goals rw [hd] at hrow; cases hrow

/-! ### Decoding what was encoded -/

theorem decode_encode {i : Instr} (h : i.wellFormed = true) : decode (encode i) = i := by
  cases i
  case unknown w => exact (decode_eq_unknown_iff w).2 ((wellFormed_unknown_iff w).1 h)
  case cls => rfl
  case ret => rfl
  all_goals simp [encode, decode, decodeIfN0, decodeFamily8, decodeFamilyE, decodeFamilyF]

/-- Settles O5: the two bytes of a word make it up again, and `decode` undoes `encode` on well-formed instructions. -/
theorem decodeOfEncodeIsIdentity : Obligations.DecodeOfEncodeIsIdentity := by
  unfold Obligations.DecodeOfEncodeIsIdentity
  intro i rest h
  show Except.ok (decode (wordOfBytes (highByte (encode i)) (lowByte (encode i))), rest) = _
  rw [wordOfBytes_bytes, decode_encode h]

/-- Settles O6: `decode_spec` goes through the branches of the decoder. -/
theorem encodeOfDecodeIsIdentity : Obligations.EncodeOfDecodeIsIdentity := by
  unfold Obligations.EncodeOfDecodeIsIdentity
  exact decode_spec

/-- Settles O7: the word is the decoded instruction's encoding, so it matches that instruction's row, and rows are
disjoint. -/
theorem decodeFollowsTheOpcodeMap : Obligations.DecodeFollowsTheOpcodeMap := by
  unfold Obligations.DecodeFollowsTheOpcodeMap
  intro w
  cases hrow : (decode w).row with
  | some r =>
    have hmem := row_mem_opcodeMap hrow
    have hmatch := decode_row_matches hrow
    exact ⟨hmem, hmatch, fun q hq hwq => eq_of_matches hq hmem hwq hmatch⟩
  | none =>
    intro q hq
    have hw := isListed_of_decode_row_none hrow
    rw [← Bool.not_eq_true, isListed_iff] at hw
    exact Bool.eq_false_iff.2 fun hwq => hw ⟨q, hq, hwq⟩

/-- Settles O8: the catch-all is decoded for the unlisted words, and those are the six families. -/
theorem unknownWordsAreThoseOfTheFamilies : Obligations.UnknownWordsAreThoseOfTheFamilies := by
  unfold Obligations.UnknownWordsAreThoseOfTheFamilies
  exact fun w => (decode_eq_unknown_iff w).trans (isListed_eq_false_iff w)

/-- Settles O9: the fourteen words are decoded by evaluation. -/
theorem sampleWordsDecode : Obligations.SampleWordsDecode := by
  unfold Obligations.SampleWordsDecode
  decide

end Sys2Proof
end

section
/-! PROOFS. The call stack and the jumps (spec/40_flow.md, rules R123, R125 to R127), with what every instruction that
halts answers. -/

set_option autoImplicit false

namespace Sys2Proof.Machine

/-- Parts listed twice are listed once: two writes that each change only listed parts. -/
theorem Frame.trans_self {changed : List Part} {s t u : State} (h : Frame changed s t) (h' : Frame changed t u) :
    Frame changed s u :=
  (h.trans h').mono (List.append_subset.2 ⟨List.Subset.refl _, List.Subset.refl _⟩)

theorem Frame.refl (changed : List Part) (s : State) : Frame changed s s := by
  intro p _
  cases p <;> simp [Unchanged]

theorem haltsWith_of_exec {i : Instr} {s : State} {r : HaltReason} (h : exec i s = .next (takeHalt r s)) :
    HaltsWith r s (exec i s) := by
  rw [h]
  exact takeHalt_halts r s

theorem setStack_frame (n : Fin 17) (stack : Vector Word 16) (s : State) : Frame [.stack] s (s.setStack n stack) := by
  intro p hp
  cases p
  case stack => exact absurd (List.mem_singleton.2 rfl) hp
  all_goals simp [Unchanged]

theorem setStack_setPc_frame (n : Fin 17) (stack : Vector Word 16) (w : Word) (s : State) :
    Frame [.pc, .stack] s ((s.setStack n stack).setPc w) :=
  ((setStack_frame n stack s).trans (setPc_frame w _)).mono (List.Perm.swap _ _ _).subset

/-- Settles O34: below 16 outstanding calls the next state is the one of `exec_call_ok`, with 16 the halt. -/
theorem callPushesTheReturnAddressOrHalts : Obligations.CallPushesTheReturnAddressOrHalts := by
  unfold Obligations.CallPushesTheReturnAddressOrHalts
  intro nnn s
  refine ⟨fun h => ⟨_, exec_call_ok s nnn h, setStack_setPc_frame _ _ _ s, immAddr_toNat nnn, rfl, ?_, fun k hk => ?_⟩,
    fun h => haltsWith_of_exec (exec_call_halt s nnn h)⟩
  · simp [State.nextPc_toNat]
  · exact Vector.getElem_set_ne h k.isLt (Ne.symm hk)

/-- Settles O35: above an empty stack the next state is the one of `exec_ret_ok`, on it the halt. -/
theorem returnGoesToThePoppedValueOrHalts : Obligations.ReturnGoesToThePoppedValueOrHalts := by
  unfold Obligations.ReturnGoesToThePoppedValueOrHalts
  intro s
  exact ⟨fun h => ⟨_, exec_ret_ok s h, setStack_setPc_frame _ _ _ s, rfl, rfl, rfl⟩,
    fun h => haltsWith_of_exec (exec_ret_halt s h)⟩

/-! ### Nested calls -/

theorem execAll_append (is js : List Instr) (s : State) :
    execAll (is ++ js) s = (execAll is s).bind (execAll js) := by
  induction is generalizing s with
  | nil => rfl
  | cons i is ih =>
    obtain ⟨t, hexec⟩ := exec_next i s
    simp only [List.cons_append, execAll, hexec, ih]

/-- Calls that fit stack up the addresses after them: slot `sp + j` holds the address after the `j`-th, which stands at
`pc` or where the call before it went. The slots below stay. -/
theorem execAll_calls (targets : List Addr) (s : State) (h : s.sp.val + targets.length ≤ 16) :
    ∃ t, execAll (targets.map Instr.call) s = some t ∧ Frame [.pc, .stack] s t ∧
      t.sp.val = s.sp.val + targets.length ∧
      (∀ k : Fin 16, k.val < s.sp.val → t.stack[k.val] = s.stack[k.val]) ∧
      ∀ k : Fin 16, s.sp.val ≤ k.val → k.val < s.sp.val + targets.length →
        t.stack[k.val] = (s.pc :: targets.map (fun a => zext16 a)).getD (k.val - s.sp.val) 0 + 2 := by
  induction targets generalizing s with
  | nil => exact ⟨s, rfl, Frame.refl _ s, rfl, fun _ _ => rfl, fun k h1 h2 => absurd h2 (Nat.not_lt.2 h1)⟩
  | cons a as ih =>
    rw [List.length_cons] at h
    have hsp : s.sp.val < 16 := by omega
    have hexec := exec_call_ok s a hsp
    obtain ⟨t, hall, hframe, htsp, hbelow, habove⟩ :=
      ih ((s.setStack ⟨s.sp.val + 1, by omega⟩ (s.stack.set s.sp.val s.nextPc hsp)).setPc (immAddr a))
        (by simp only [State.setPc_sp, State.setStack_sp]; omega)
    simp only [State.setPc_sp, State.setStack_sp, State.setPc_stack, State.setStack_stack, State.setPc_pc] at *
    refine ⟨t, ?_, (setStack_setPc_frame _ _ _ s).trans_self hframe, ?_, fun k hk => ?_, fun k hk hk' => ?_⟩
    · simp only [List.map_cons, execAll, hexec, hall]
    · rw [htsp, List.length_cons]; omega
    · rw [hbelow k (by omega), Vector.getElem_set_ne hsp k.isLt (by omega)]
    · rw [List.length_cons] at hk'
      by_cases e : k.val = s.sp.val
      · rw [hbelow k (by omega)]
        simp [e, State.nextPc, Config.instrBytes]
      · rw [habove k (by omega) (by omega), show k.val - s.sp.val = k.val - (s.sp.val + 1) + 1 by omega]
        rfl

/-- Returns that the stack has calls for go to the slots from the top down, the last one to slot `sp - k`; no slot
changes. -/
theorem execAll_rets (k : Nat) (s : State) (h : k ≤ s.sp.val) :
    ∃ t, execAll (List.replicate k Instr.ret) s = some t ∧ Frame [.pc, .stack] s t ∧ t.sp.val = s.sp.val - k ∧
      t.stack = s.stack ∧ ∀ j : Fin 16, 1 ≤ k → j.val = s.sp.val - k → t.pc = s.stack[j.val] := by
  induction k with
  | zero => exact ⟨s, rfl, Frame.refl _ s, rfl, rfl, fun _ h1 => absurd h1 (by decide)⟩
  | succ k ih =>
    obtain ⟨t, hall, hframe, htsp, htstack, -⟩ := ih (by omega)
    have hexec := exec_ret_ok t (by omega)
    refine ⟨(t.setStack ⟨t.sp.val - 1, by omega⟩ t.stack).setPc (t.stack[t.sp.val - 1]'(by omega)), ?_,
      hframe.trans_self (setStack_setPc_frame _ _ _ t), ?_, htstack, fun j _ hj => ?_⟩
    · rw [List.replicate_succ', execAll_append, hall, Option.bind_some, execAll, hexec]
      rfl
    · simp only [State.setPc_sp, State.setStack_sp]; omega
    · have : t.sp.val - 1 = j.val := by omega
      simp only [State.setPc_pc, htstack, this]

/-- Settles O36: the returns find in slot `sp + (N - k)` what the calls put there. -/
theorem nestedCallsReturnInReverseOrder : Obligations.NestedCallsReturnInReverseOrder := by
  unfold Obligations.NestedCallsReturnInReverseOrder
  intro targets s k hfit hk
  obtain ⟨t, hcalls, hframe, htsp, -, hslots⟩ := execAll_calls targets s hfit
  obtain ⟨u, hrets, hframe', husp, -, hpc⟩ := execAll_rets k t (by omega)
  refine ⟨u, ?_, hframe.trans_self hframe', by omega, fun h1 => ?_⟩
  · rw [execAll_append, hcalls, Option.bind_some, hrets]
  · rw [hpc ⟨s.sp.val + (targets.length - k), by omega⟩ h1 (by simp only; omega),
      hslots _ (by simp only; omega) (by simp only; omega)]
    simp only [Nat.add_sub_cancel_left]

@[simp] theorem zext16_byte_toNat (b : Byte) : (zext16 b).toNat = b.toNat := BitVec.toNat_setWidth_of_le (by decide)

theorem exec_jpV0 (nnn : Addr) (s : State) :
    exec (.jpV0 nnn) s = .next (s.setPc (immAddr nnn + zext16 (s.getV 0))) := rfl

/-- A 12-bit address and a byte have a sum that a word holds. -/
theorem immAddr_add_byte_toNat (nnn : Addr) (b : Byte) : (immAddr nnn + zext16 b).toNat = nnn.toNat + b.toNat := by
  have := nnn.isLt
  have := b.isLt
  rw [BitVec.toNat_add, immAddr_toNat, zext16_byte_toNat]
  omega

/-- Settles O33: the next state differs from `s` by `setPc` alone, and the sum is below 65536. -/
theorem indexedJumpAddsV0 : Obligations.IndexedJumpAddsV0 := by
  unfold Obligations.IndexedJumpAddsV0
  intro nnn s
  exact ⟨_, exec_jpV0 nnn s, setPc_frame _ s, immAddr_add_byte_toNat nnn (s.getV 0)⟩

end Sys2Proof.Machine
end

section
/-! PROOFS. Key skips (spec/46_timer_key_random.md, rules R193 and R194). -/

set_option autoImplicit false

namespace Sys2Proof.Machine

/-- Settles O38: below 16 both are conditional skips on the named key, from 16 on both halt. -/
theorem keySkipsFollowTheNamedKeyOrHalt : Obligations.KeySkipsFollowTheNamedKeyOrHalt := by
  unfold Obligations.KeySkipsFollowTheNamedKeyOrHalt
  intro x s
  refine ⟨fun h => ?_, fun h => ?_⟩
  · rw [BitVec.ofNat_toNat]
    refine ⟨completes_of_exec_skipIf (exec_skp_ok s x h), ?_⟩
    have hskip := completes_of_exec_skipIf (exec_sknp_ok s x h)
    cases hkey : s.getKey ((s.getV x).setWidth 4) <;> simpa [hkey] using hskip
  · have h' : ¬ (s.getV x).toNat < 16 := Nat.not_lt.2 h
    exact ⟨haltsWith_of_exec (exec_skp_halt s x h'), haltsWith_of_exec (exec_sknp_halt s x h')⟩

end Sys2Proof.Machine
end

section
/-! PROOFS. The ALU family (spec/43_alu.md, rules R152 to R159), with what every instruction that defines a flag and
advances does. -/

set_option autoImplicit false

namespace Sys2Proof.Machine

theorem exec_orReg (x y : Nibble) (s : State) :
    exec (.orReg x y) s = .next (advance (s.setV x (s.getV x ||| s.getV y))) := rfl

theorem exec_andReg (x y : Nibble) (s : State) :
    exec (.andReg x y) s = .next (advance (s.setV x (s.getV x &&& s.getV y))) := rfl

theorem exec_xorReg (x y : Nibble) (s : State) :
    exec (.xorReg x y) s = .next (advance (s.setV x (s.getV x ^^^ s.getV y))) := rfl

theorem Completes.mono {i : Instr} {s : State} {changed : List Part} {P Q : State → Prop} (h : Completes i s changed P)
    (hPQ : ∀ t, P t → Q t) : Completes i s changed Q := by
  obtain ⟨t, hexec, hframe, hP⟩ := h
  exact ⟨t, hexec, hframe, hPQ t hP⟩

/-- Settles O42: each writes one byte to `V[x]` and advances, and the bits of that byte are those of the operation. -/
theorem logicOperationsWorkBitByBit : Obligations.LogicOperationsWorkBitByBit := by
  unfold Obligations.LogicOperationsWorkBitByBit
  intro x y s
  refine ⟨(completes_of_exec_advance_setV (exec_orReg x y s)).mono fun t ht => ⟨fun j _ => ?_, ht.2⟩,
    (completes_of_exec_advance_setV (exec_andReg x y s)).mono fun t ht => ⟨fun j _ => ?_, ht.2⟩,
    (completes_of_exec_advance_setV (exec_xorReg x y s)).mono fun t ht => ⟨fun j _ => ?_, ht.2⟩⟩
  · rw [ht.1, BitVec.getLsbD_or]
  · rw [ht.1, BitVec.getLsbD_and]
  · rw [ht.1, BitVec.getLsbD_xor]

/-! ### Results with a flag -/

theorem writeResultAndFlag_frame (x : Nibble) (r : Byte) (f : Bool) (s : State) :
    Frame [.regs] s (writeResultAndFlag x r f s) :=
  (setV_frame x r s).trans_self (setV_frame Config.flagReg (flagByte f) _)

/-- Every instruction that gives `V[x]` the byte `r` and then `VF` the flag `f` and advances completes, and writes no
other register; with x = F the flag is what stays (R150, D10). -/
theorem completes_of_exec_advance_flag {i : Instr} {s : State} {x : Nibble} {r : Byte} {f : Bool}
    (h : exec i s = .next (advance (writeResultAndFlag x r f s))) :
    Completes i s [.regs, .pc] fun t =>
      (x ≠ 15 → t.getV x = r) ∧ t.getV 15 = flagByte f ∧ RegsExcept [x, 15] s t ∧ Advances 2 s t := by
  refine ⟨_, h, (writeResultAndFlag_frame x r f s).trans (advance_frame _), fun hx => ?_, ?_, fun z hz => ?_,
    advance_advances (writeResultAndFlag x r f s)⟩
  · rw [advance_getV, writeResultAndFlag_getV, if_neg hx, if_pos rfl]
  · rw [advance_getV, writeResultAndFlag_getV, if_pos rfl]
  · rw [List.mem_cons, List.mem_singleton, not_or] at hz
    rw [advance_getV, writeResultAndFlag_getV, if_neg hz.2, if_neg hz.1]

theorem exec_addReg (x y : Nibble) (s : State) : exec (.addReg x y) s =
    .next (advance (writeResultAndFlag x (s.getV x + s.getV y) (carryOut (s.getV x) (s.getV y)) s)) := rfl

theorem exec_subReg (x y : Nibble) (s : State) : exec (.subReg x y) s =
    .next (advance (writeResultAndFlag x (s.getV x - s.getV y) (greater (s.getV x) (s.getV y)) s)) := rfl

theorem exec_subnReg (x y : Nibble) (s : State) : exec (.subnReg x y) s =
    .next (advance (writeResultAndFlag x (s.getV y - s.getV x) (greater (s.getV y) (s.getV x)) s)) := rfl

theorem exec_shr (x y : Nibble) (s : State) : exec (.shr x y) s =
    .next (advance (writeResultAndFlag x (s.getV x >>> 1) (lowBit (s.getV x)) s)) := rfl

theorem exec_shl (x y : Nibble) (s : State) : exec (.shl x y) s =
    .next (advance (writeResultAndFlag x (s.getV x <<< 1) (highBit (s.getV x)) s)) := rfl

theorem flagByte_carryOut (a b : Byte) : flagByte (carryOut a b) = if 255 < a.toNat + b.toNat then 1 else 0 := by
  simp only [flagByte, carryOut, decide_eq_true_eq]

theorem flagByte_greater (a b : Byte) : flagByte (greater a b) = if b.toNat < a.toNat then 1 else 0 := by
  simp only [flagByte, greater, decide_eq_true_eq]

/-- Subtraction of bytes is subtraction modulo 256. -/
theorem byte_sub_toNat (a b : Byte) : (a - b).toNat = (a.toNat + 256 - b.toNat) % 256 := by
  have := b.isLt
  rw [BitVec.toNat_sub]
  omega

theorem flagByte_lowBit_toNat : ∀ b : Byte, (flagByte (lowBit b)).toNat = b.toNat % 2 := by decide

theorem flagByte_highBit_toNat : ∀ b : Byte, (flagByte (highBit b)).toNat = b.toNat / 128 := by decide

/-- Settles O43: the result is the sum of two bytes, the flag the carry out. -/
theorem addSetsTheCarryFlag : Obligations.AddSetsTheCarryFlag := by
  unfold Obligations.AddSetsTheCarryFlag
  intro x y s
  refine (completes_of_exec_advance_flag (exec_addReg x y s)).mono fun t ⟨hresult, hflag, hrest⟩ =>
    ⟨fun hx => ?_, ?_, hrest⟩
  · rw [hresult hx, BitVec.toNat_add]
  · rw [hflag, flagByte_carryOut]

/-- Settles O44: the result is the difference of two bytes, the flag whether the first is greater. -/
theorem subtractSetsTheStrictlyGreaterFlag : Obligations.SubtractSetsTheStrictlyGreaterFlag := by
  unfold Obligations.SubtractSetsTheStrictlyGreaterFlag
  intro x y s
  refine (completes_of_exec_advance_flag (exec_subReg x y s)).mono fun t ⟨hresult, hflag, hrest⟩ =>
    ⟨fun hx => ?_, ?_, hrest⟩
  · rw [hresult hx, byte_sub_toNat]
  · rw [hflag, flagByte_greater]

/-- Settles O45: as the subtraction, with the operands exchanged. -/
theorem reverseSubtractSetsTheStrictlyGreaterFlag : Obligations.ReverseSubtractSetsTheStrictlyGreaterFlag := by
  unfold Obligations.ReverseSubtractSetsTheStrictlyGreaterFlag
  intro x y s
  refine (completes_of_exec_advance_flag (exec_subnReg x y s)).mono fun t ⟨hresult, hflag, hrest⟩ =>
    ⟨fun hx => ?_, ?_, hrest⟩
  · rw [hresult hx, byte_sub_toNat]
  · rw [hflag, flagByte_greater]

/-- Settles O46: the result is the shifted byte, the flag the bit shifted out. -/
theorem shiftsMoveVxByOneAndFlagTheEvictedBit : Obligations.ShiftsMoveVxByOneAndFlagTheEvictedBit := by
  unfold Obligations.ShiftsMoveVxByOneAndFlagTheEvictedBit
  intro x y s
  refine ⟨(completes_of_exec_advance_flag (exec_shr x y s)).mono fun t ⟨hresult, hflag, hrest⟩ =>
      ⟨fun hx => ?_, ?_, hrest⟩,
    (completes_of_exec_advance_flag (exec_shl x y s)).mono fun t ⟨hresult, hflag, hrest⟩ =>
      ⟨fun hx => ?_, ?_, hrest⟩⟩
  · rw [hresult hx, BitVec.toNat_ushiftRight, Nat.shiftRight_eq_div_pow]
  · rw [hflag, flagByte_lowBit_toNat]
  · rw [hresult hx, BitVec.toNat_shiftLeft, Nat.shiftLeft_eq, Nat.mul_comm]
  · rw [hflag, flagByte_highBit_toNat]

end Sys2Proof.Machine
end

section
/-! PROOFS. The index register and memory (spec/44_index_memory.md, rules R172 to R176; spec/20_memory.md, rule R74), with
what every instruction that stores and advances does. -/

set_option autoImplicit false

namespace Sys2Proof.Machine

theorem exec_addI (x : Nibble) (s : State) :
    exec (.addI x) s = .next (advance (s.setI (s.i + zext16 (s.getV x)))) := rfl

theorem exec_ldF (x : Nibble) (s : State) :
    exec (.ldF x) s = .next (advance (s.setI (5 * zext16 (s.getV x)))) := rfl

/-- Settles O48: the instruction writes the sum to `I` and advances, and words add modulo 65536. -/
theorem addToIndexWrapsAt65536 : Obligations.AddToIndexWrapsAt65536 := by
  unfold Obligations.AddToIndexWrapsAt65536
  intro x s
  refine (completes_of_exec_advance_setI (exec_addI x s)).mono fun t ⟨hindex, hpc⟩ => ⟨?_, hpc⟩
  rw [hindex, BitVec.toNat_add, zext16_byte_toNat]

/-- Settles O49: the instruction writes the product to `I` and advances, and five times a byte is below 65536. -/
theorem glyphAddressIsFiveTimesVx : Obligations.GlyphAddressIsFiveTimesVx := by
  unfold Obligations.GlyphAddressIsFiveTimesVx
  intro x s
  refine (completes_of_exec_advance_setI (exec_ldF x s)).mono fun t ⟨hindex, hpc⟩ => ⟨?_, hpc⟩
  have hlt := (s.getV x).isLt
  rw [hindex, BitVec.toNat_mul, zext16_byte_toNat]
  exact Nat.mod_eq_of_lt (show 5 * (s.getV x).toNat < 65536 by omega)

/-! ### Stores and bulk loads -/

/-- Every instruction that gives memory the contents `m` and advances completes, and writes no register. -/
theorem completes_of_exec_advance_setMem {i : Instr} {s : State} {m : List Host.Cell}
    (h : exec i s = .next (advance (s.setMem m))) :
    Completes i s [.mem, .pc] fun t => (∀ a, t.byteAt a = Memory.get m a) ∧ Advances 2 s t :=
  ⟨_, h, (setMem_frame m s).trans (advance_frame _), fun _ => rfl, advance_advances (s.setMem m)⟩

theorem setV_all_frame (v : Vector Byte 16) (s : State) : Frame [.regs] s { s with v := v } := by
  intro p hp
  cases p
  case regs => exact absurd (List.mem_singleton.2 rfl) hp
  all_goals simp [Unchanged, State.byteAt]

/-- Settles O50: with the three bytes in memory the stored range holds the digits, else the instruction halts. -/
theorem bcdStoresThreeDigitsOrHalts : Obligations.BcdStoresThreeDigitsOrHalts := by
  unfold Obligations.BcdStoresThreeDigitsOrHalts
  intro x s
  refine ⟨fun h => ?_, fun h => haltsWith_of_exec (exec_ldB_halt s x (Nat.not_lt.2 h))⟩
  obtain ⟨m, hexec, hget, -⟩ := exec_ldB_ok s x h
  refine (completes_of_exec_advance_setMem hexec).mono fun t ⟨hbyte, hpc⟩ => ?_
  have hstored : ∀ k, k < 3 → t.byteAt (effAddr s k) = (bcdDigits (s.getV x)).getD k 0 := fun k hk => by
    rw [hbyte, hget, if_pos (by simp only [effAddr]; omega)]
    simp [effAddr]
  refine ⟨?_, ?_, ?_, fun a ha => ?_, hpc⟩
  · simp [hstored 0, bcdDigits]
  · simp [hstored 1, bcdDigits]
  · simp [hstored 2, bcdDigits]
  · rw [hbyte, hget, if_neg (by simp only [effAddr] at *; omega)]

/-- Settles O51: with the range in memory it holds the registers, else the instruction halts. -/
theorem bulkStoreStoresTheRangeOrHalts : Obligations.BulkStoreStoresTheRangeOrHalts := by
  unfold Obligations.BulkStoreStoresTheRangeOrHalts
  intro x s
  refine ⟨fun h => ?_, fun h => haltsWith_of_exec (exec_storeRegs_halt s x (Nat.not_lt.2 h))⟩
  obtain ⟨m, hexec, hget, -⟩ := exec_storeRegs_ok s x h
  refine (completes_of_exec_advance_setMem hexec).mono fun t ⟨hbyte, hpc⟩ => ⟨fun k hk => ?_, fun a ha => ?_, hpc⟩
  · rw [hbyte, hget, if_pos (by simp only [effAddr]; omega)]
    simp [effAddr]
  · rw [hbyte, hget, if_neg (by omega)]

/-- Settles O52: with the range in memory the registers hold it, else the instruction halts. -/
theorem bulkLoadLoadsTheRangeOrHalts : Obligations.BulkLoadLoadsTheRangeOrHalts := by
  unfold Obligations.BulkLoadLoadsTheRangeOrHalts
  intro x s
  refine ⟨fun h => ?_, fun h => haltsWith_of_exec (exec_loadRegs_halt s x (Nat.not_lt.2 h))⟩
  obtain ⟨v, hexec, hget⟩ := exec_loadRegs_ok s x h
  refine ⟨_, hexec, (setV_all_frame v s).trans (advance_frame _), fun z hz => ?_, fun z hz => ?_,
    advance_advances { s with v := v }⟩
  · rw [advance_getV, hget, if_pos hz]
  · rw [advance_getV, hget, if_neg (Nat.not_le.2 hz)]

/-- Settles O53: the load reads at `I + k` what the store put there, `V[k]`. -/
theorem bulkLoadRestoresWhatBulkStoreSaved : Obligations.BulkLoadRestoresWhatBulkStoreSaved := by
  unfold Obligations.BulkLoadRestoresWhatBulkStoreSaved
  intro x s h
  obtain ⟨t, hstore, -, hstored, -⟩ := (bulkStoreStoresTheRangeOrHalts x s).1 h
  refine ⟨t, hstore, fun u hmem hi => ?_⟩
  have haddr : ∀ k, effAddr u k = effAddr s k := fun k => by simp only [effAddr, hi]
  have hbyte : ∀ a, u.byteAt a = t.byteAt a := fun a => by simp only [State.byteAt, hmem]
  obtain ⟨v, hload, -, hloaded, -⟩ := (bulkLoadLoadsTheRangeOrHalts x u).1 (by rwa [haddr])
  refine ⟨v, hload, fun z hz => ?_⟩
  rw [hloaded z hz, hbyte, haddr, hstored _ hz, BitVec.ofNat_toNat, BitVec.setWidth_eq]

/-- Settles O12: the store advances `pc` to `I`, where it has put `V[0]` and `V[1]`. -/
theorem storedCodeIsFetchedNext : Obligations.StoredCodeIsFetchedNext := by
  unfold Obligations.StoredCodeIsFetchedNext
  intro x s hx hi hfit
  obtain ⟨t, hexec, -, hstored, -, hpc⟩ := (bulkStoreStoresTheRangeOrHalts x s).1 hfit
  have htpc : t.pc.toNat = effAddr s 0 := by rw [hpc]; simp only [effAddr]; omega
  refine ⟨t, wordAtPc t, hexec, fetch_ok (by simp only [htpc, effAddr]; omega), ?_⟩
  rw [wordAtPc_toNat, htpc, hstored 0 (Nat.zero_le _)]
  exact congrArg (fun b : Byte => _ + b.toNat) (hstored 1 hx)

end Sys2Proof.Machine
end

section
/-! PROOFS. Sprites (spec/45_display.md, rules R181 and R182): the cells of a sprite by its rows and bits. -/

set_option autoImplicit false

namespace Sys2Proof.Machine

/-- Bit `7 - b` of sprite row `r` falls on column `x0 + b` and row `y0 + r`, both wrapped. -/
theorem spriteBit_at {x0 y0 r b : Nat} {rows : List Byte} (hrows : rows.length ≤ 32) (hr : r < rows.length)
    (hb : b < 8) : spriteBit x0 y0 rows ((x0 + b) % 64) ((y0 + r) % 32) = (rows.getD r 0).getLsbD (7 - b) := by
  have hcol : ((x0 + b) % 64 + 64 - x0 % 64) % 64 = b := by omega
  have hrow : ((y0 + r) % 32 + 32 - y0 % 32) % 32 = r := by omega
  simp [spriteBit, hcol, hrow, hb, hr]

/-- A cell under a 1 bit is the one of some row and bit of the sprite. -/
theorem place_of_spriteBit {x0 y0 col row : Nat} {rows : List Byte} (hcol : col < 64) (hrow : row < 32)
    (h : spriteBit x0 y0 rows col row = true) :
    ∃ r b, r < rows.length ∧ b < 8 ∧ col = (x0 + b) % 64 ∧ row = (y0 + r) % 32 := by
  simp only [spriteBit, Bool.and_eq_true, decide_eq_true_eq] at h
  obtain ⟨⟨hb, hr⟩, -⟩ := h
  exact ⟨_, _, hr, hb, by omega, by omega⟩

/-- The cells under a 1 bit, by column and row or by the sprite's rows and bits. -/
theorem exists_spriteBit_iff {x0 y0 : Nat} {rows : List Byte} (hrows : rows.length ≤ 32) (P : Nat → Nat → Prop) :
    (∃ col row, col < 64 ∧ row < 32 ∧ P col row ∧ spriteBit x0 y0 rows col row = true) ↔
      ∃ r b, r < rows.length ∧ b < 8 ∧ P ((x0 + b) % 64) ((y0 + r) % 32) ∧
        (rows.getD r 0).getLsbD (7 - b) = true := by
  constructor
  · rintro ⟨col, row, hcol, hrow, hP, hbit⟩
    obtain ⟨r, b, hr, hb, rfl, rfl⟩ := place_of_spriteBit hcol hrow hbit
    exact ⟨r, b, hr, hb, hP, by rwa [spriteBit_at hrows hr hb] at hbit⟩
  · rintro ⟨r, b, hr, hb, hP, hbit⟩
    exact ⟨_, _, Nat.mod_lt _ (by decide), Nat.mod_lt _ (by decide), hP, by rwa [spriteBit_at hrows hr hb]⟩

theorem spriteRows_length (s : State) (n : Nat) : (spriteRows s n).length = n := by simp [spriteRows]

theorem spriteRows_getD (s : State) {n r : Nat} (h : r < n) : (spriteRows s n).getD r 0 = s.byteAt (effAddr s r) := by
  simp [spriteRows, h]

theorem flagByte_eq_one_iff (f : Bool) : flagByte f = 1 ↔ f = true := by cases f <;> decide

/-- The sprite a `Dxyn` draws, on the framebuffer it finds. -/
def drawn (x y n : Nibble) (s : State) : Canvas :=
  blit (s.getV x).toNat (s.getV y).toNat (spriteRows s n.toNat) s.fb

/-- The state after a `Dxyn` that completes. -/
def afterDraw (x y n : Nibble) (s : State) : State :=
  advance ((s.setFb (drawn x y n s).fb).setFlag (drawn x y n s).hit)

/-- The bit that the sprite of a `Dxyn` has for a cell. -/
def drawnBit (x y n : Nibble) (s : State) (col row : Nat) : Bool :=
  spriteBit (s.getV x).toNat (s.getV y).toNat (spriteRows s n.toNat) col row

section
variable (x y n : Nibble) (s : State)

theorem exec_drw_afterDraw (h : n.toNat = 0 ∨ effAddr s n.toNat ≤ 4096) :
    exec (.drw x y n) s = .next (afterDraw x y n s) := exec_drw_ok s x y n h

theorem afterDraw_frame : Frame [.regs, .fb, .pc] s (afterDraw x y n s) :=
  (((setFb_frame _ s).trans (setV_frame _ _ _)).trans (advance_frame _)).mono (by decide)

theorem afterDraw_regsExcept : RegsExcept [15] s (afterDraw x y n s) := setV_regsExcept 15 _ (s.setFb (drawn x y n s).fb)

theorem afterDraw_advances : Advances 2 s (afterDraw x y n s) :=
  advance_advances ((s.setFb (drawn x y n s).fb).setFlag (drawn x y n s).hit)

theorem afterDraw_getV_15 : (afterDraw x y n s).getV 15 = flagByte (drawn x y n s).hit :=
  State.setV_getV_same (s.setFb (drawn x y n s).fb) 15 _

/-- The sprite of a `Dxyn` has at most 15 rows. -/
theorem spriteRows_length_le : (spriteRows s n.toNat).length ≤ 32 := by
  have := n.isLt
  rw [spriteRows_length]
  omega

theorem afterDraw_cell {col row : Nat} (hcol : col < 64) (hrow : row < 32) :
    (afterDraw x y n s).cell (cellIndex col row) = (s.cell (cellIndex col row) ^^ drawnBit x y n s col row) :=
  (blit_spec _ _ _ s.fb (spriteRows_length_le n s)).1 col row hcol hrow

theorem afterDraw_flag_iff : (afterDraw x y n s).getV 15 = 1 ↔
    ∃ col row, col < 64 ∧ row < 32 ∧ s.cell (cellIndex col row) = true ∧ drawnBit x y n s col row = true := by
  rw [afterDraw_getV_15, flagByte_eq_one_iff]
  exact (blit_spec _ _ _ s.fb (spriteRows_length_le n s)).2

theorem drawnBit_at {r b : Nat} (hr : r < n.toNat) (hb : b < 8) :
    drawnBit x y n s (((s.getV x).toNat + b) % 64) (((s.getV y).toNat + r) % 32) =
      (s.byteAt (effAddr s r)).getLsbD (7 - b) := by
  rw [drawnBit, spriteBit_at (spriteRows_length_le n s) (by rwa [spriteRows_length]) hb, spriteRows_getD s hr]

/-- The cells under a 1 bit of the sprite of a `Dxyn`, by its rows and bits. -/
theorem exists_drawnBit_iff (P : Nat → Nat → Prop) :
    (∃ col row, col < 64 ∧ row < 32 ∧ P col row ∧ drawnBit x y n s col row = true) ↔
      ∃ r b, r < n.toNat ∧ b < 8 ∧ P (((s.getV x).toNat + b) % 64) (((s.getV y).toNat + r) % 32) ∧
        (s.byteAt (effAddr s r)).getLsbD (7 - b) = true := by
  refine (exists_spriteBit_iff (spriteRows_length_le n s) P).trans ?_
  rw [spriteRows_length]
  refine exists_congr fun r => exists_congr fun b => and_congr_right fun hr => ?_
  rw [spriteRows_getD s hr]

/-- A cell on which no bit of the sprite falls. -/
theorem drawnBit_outside {col row : Nat} (hcol : col < 64) (hrow : row < 32)
    (hout : ∀ r b, r < n.toNat → b < 8 →
      cellIndex col row ≠ cellIndex (((s.getV x).toNat + b) % 64) (((s.getV y).toNat + r) % 32)) :
    drawnBit x y n s col row = false := by
  rw [← Bool.not_eq_true]
  intro hbit
  obtain ⟨r, b, hr, hb, rfl, rfl⟩ := place_of_spriteBit hcol hrow hbit
  exact hout r b (by rwa [spriteRows_length] at hr) hb rfl

end

/-- Every cell has a column and a row. -/
theorem exists_cellIndex {c : Nat} (hc : c < 2048) : ∃ col row, col < 64 ∧ row < 32 ∧ c = cellIndex col row :=
  ⟨c % 64, c / 64, Nat.mod_lt _ (by decide), by omega, by simp only [cellIndex]; omega⟩

/-- Settles O55: the state after the draw, whose cells and flag `blit_spec` gives, read by the sprite's rows and bits. -/
theorem drawXorsTheSpriteAndFlagsCollision : Obligations.DrawXorsTheSpriteAndFlagsCollision := by
  unfold Obligations.DrawXorsTheSpriteAndFlagsCollision
  intro x y n s h
  refine ⟨afterDraw x y n s, exec_drw_afterDraw x y n s h, afterDraw_frame x y n s, fun r b hr hb => ?_,
    fun c hc hout => ?_, ?_, ?_, afterDraw_regsExcept x y n s, afterDraw_advances x y n s⟩
  · rw [afterDraw_cell x y n s (Nat.mod_lt _ (by decide)) (Nat.mod_lt _ (by decide)), drawnBit_at x y n s hr hb]
  · obtain ⟨col, row, hcol, hrow, rfl⟩ := exists_cellIndex hc
    rw [afterDraw_cell x y n s hcol hrow, drawnBit_outside x y n s hcol hrow hout, Bool.xor_false]
  · rw [afterDraw_getV_15]
    cases (drawn x y n s).hit
    · exact .inl rfl
    · exact .inr rfl
  · rw [afterDraw_flag_iff]
    exact exists_drawnBit_iff x y n s fun col row => s.cell (cellIndex col row) = true

/-- Settles O56: with a row outside memory the range read halts. -/
theorem drawFromOutsideMemoryHalts : Obligations.DrawFromOutsideMemoryHalts := by
  unfold Obligations.DrawFromOutsideMemoryHalts
  intro x y n s hn hout
  exact haltsWith_of_exec (exec_drw_halt s x y n (by omega))

/-- Where `VF` gives no coordinate, a second draw meets the same sprite at the same place. -/
theorem drawnBit_afterDraw {x y : Nibble} (hx : x ≠ 15) (hy : y ≠ 15) (n : Nibble) (s : State) :
    drawnBit x y n (afterDraw x y n s) = drawnBit x y n s := by
  funext col row
  have hregs := afterDraw_regsExcept x y n s
  rw [drawnBit, hregs x (List.mem_singleton.not.2 hx), hregs y (List.mem_singleton.not.2 hy)]
  rfl

/-- Settles O57: the second draw meets the same sprite at the same place, so that each cell is XORed twice with one bit. -/
theorem drawingTwiceRestoresTheFramebuffer : Obligations.DrawingTwiceRestoresTheFramebuffer := by
  unfold Obligations.DrawingTwiceRestoresTheFramebuffer
  intro x y n s hx hy h
  have hbit := drawnBit_afterDraw hx hy n s
  refine ⟨_, _, exec_drw_afterDraw x y n s h, exec_drw_afterDraw x y n (afterDraw x y n s) h,
    fb_ext fun col row hcol hrow => ?_, ?_⟩
  · refine (afterDraw_cell x y n (afterDraw x y n s) hcol hrow).trans ?_
    rw [hbit, afterDraw_cell x y n s hcol hrow, Bool.xor_assoc, Bool.xor_self, Bool.xor_false]
    rfl
  · have hunlit : (∃ col row, col < 64 ∧ row < 32 ∧ (afterDraw x y n s).cell (cellIndex col row) = true ∧
          drawnBit x y n s col row = true) ↔
        ∃ col row, col < 64 ∧ row < 32 ∧ s.cell (cellIndex col row) = false ∧ drawnBit x y n s col row = true := by
      refine exists_congr fun col => exists_congr fun row => and_congr_right fun hcol => and_congr_right fun hrow => ?_
      rw [afterDraw_cell x y n s hcol hrow]
      cases s.cell (cellIndex col row) <;> simp
    rw [afterDraw_flag_iff, hbit, hunlit,
      exists_drawnBit_iff x y n s fun col row => s.cell (cellIndex col row) = false]
    simp only [and_comm]

end Sys2Proof.Machine
end

section
/-! PROOFS. The random byte (spec/46_timer_key_random.md, rule R195). -/

set_option autoImplicit false

namespace Sys2Proof.Machine

theorem spendDraw_frame (s : State) : Frame [.draws] s s.spendDraw := by
  intro p hp
  cases p
  case draws => exact absurd (List.mem_singleton.2 rfl) hp
  all_goals simp [Unchanged]

theorem exec_rnd (x : Nibble) (kk : Byte) (s : State) :
    exec (.rnd x kk) s = .next (advance ((s.setV x (drawOperand s &&& kk)).spendDraw)) := rfl

theorem exec_rnd_getV (x : Nibble) (b : Byte) (s : State) : (advance (s.setV x b).spendDraw).getV x = b := by
  rw [advance_getV, State.spendDraw_getV, State.setV_getV_same]

/-- A byte with no bit outside a mask is kept by it. -/
theorem and_eq_of_subset {v kk : Byte} (h : ∀ j, kk.getLsbD j = false → v.getLsbD j = false) : v &&& kk = v := by
  apply BitVec.eq_of_getLsbD_eq
  intro j _
  rw [BitVec.getLsbD_and]
  cases hk : kk.getLsbD j
  · rw [h j hk, Bool.false_and]
  · exact Bool.and_true _

/-- Settles O59: the instruction writes the masked draw to `V[x]`, counts the draw and advances; every value inside the
mask is what it makes of that value as the draw. -/
theorem randomIsTheDrawMasked : Obligations.RandomIsTheDrawMasked := by
  unfold Obligations.RandomIsTheDrawMasked
  intro x kk s
  constructor
  · refine ⟨_, exec_rnd x kk s,
      (((setV_frame x _ s).trans (spendDraw_frame _)).trans (advance_frame _)).mono (by decide), fun b hb => ?_,
      fun j hj => ?_, setV_regsExcept x _ s, advance_advances (s.setV x _).spendDraw⟩
    · rw [exec_rnd_getV, drawOperand, hb, Option.getD_some]
    · rw [exec_rnd_getV, BitVec.getLsbD_and, hj, Bool.and_false]
  · intro v hv
    refine ⟨v, _, exec_rnd x kk { s with draw := some v }, ?_⟩
    rw [exec_rnd_getV]
    exact and_eq_of_subset hv

end Sys2Proof.Machine
end

section
/-! PROOFS. What each instruction may write and when it halts (spec/10_state.md; spec/60_exceptions.md, rules R210 to
R215): one inversion lemma for `exec`, and the statements on which instructions write what. -/

set_option autoImplicit false

namespace Sys2Proof.Machine

/-- The parts of the state an instruction that completes may change. -/
def writtenParts : Instr → List Part
  | .cls => [.fb, .pc]
  | .ret | .call _ => [.pc, .stack]
  | .jp _ | .jpV0 _ | .seByte _ _ | .sneByte _ _ | .seReg _ _ | .sneReg _ _ | .skp _ | .sknp _ => [.pc]
  | .ldByte _ _ | .addByte _ _ | .ldReg _ _ | .orReg _ _ | .andReg _ _ | .xorReg _ _ | .ldVxDT _ | .loadRegs _ =>
    [.regs, .pc]
  | .addReg _ _ | .subReg _ _ | .shr _ _ | .subnReg _ _ | .shl _ _ => [.regs, .pc]
  | .ldI _ | .addI _ | .ldF _ => [.index, .pc]
  | .rnd _ _ => [.regs, .pc, .draws]
  | .drw _ _ _ => [.regs, .fb, .pc]
  | .ldDTVx _ => [.dt, .pc]
  | .ldB _ | .storeRegs _ => [.mem, .pc]
  | .unknown _ => [.report, .pc]

/-- The two outcomes of an instruction. -/
def HaltsOrCompletes (i : Instr) (s : State) : Prop :=
  (∃ r, haltCause s i = some r ∧ exec i s = .next (takeHalt r s)) ∨
    (haltCause s i = none ∧ Completes i s (writtenParts i) fun _ => True)

/-- An instruction that the table of R210 does not list completes. -/
theorem haltsOrCompletes_of_completes {i : Instr} {s : State} {P : State → Prop} (hcause : haltCause s i = none)
    (h : Completes i s (writtenParts i) P) : HaltsOrCompletes i s :=
  .inr ⟨hcause, h.mono fun _ _ => trivial⟩

/-- An instruction with one fatal condition: it halts under the condition and completes else. -/
theorem haltsOrCompletes_of_ite {i : Instr} {s : State} {c : Prop} [Decidable c] {r : HaltReason}
    {P : ¬ c → State → Prop} (hcause : haltCause s i = if c then some r else none)
    (hhalt : c → exec i s = .next (takeHalt r s)) (hcompletes : ∀ h : ¬ c, Completes i s (writtenParts i) (P h)) :
    HaltsOrCompletes i s := by
  by_cases h : c
  · exact .inl ⟨r, by rw [hcause, if_pos h], hhalt h⟩
  · exact haltsOrCompletes_of_completes (by rw [hcause, if_neg h]) (hcompletes h)

/-- Every instruction halts where the table of R210 says, and else completes and changes the parts it writes only. -/
theorem exec_haltsOrCompletes (i : Instr) (s : State) : HaltsOrCompletes i s := by
  cases i
  case cls => exact haltsOrCompletes_of_completes rfl (clearZeroesEveryCell s)
  case ret =>
    obtain ⟨hok, -⟩ := returnGoesToThePoppedValueOrHalts s
    exact haltsOrCompletes_of_ite rfl (exec_ret_halt s) fun h => hok (Nat.pos_of_ne_zero h)
  case jp nnn => exact haltsOrCompletes_of_completes rfl (jumpGoesToItsAddress nnn s)
  case call nnn =>
    obtain ⟨hok, -⟩ := callPushesTheReturnAddressOrHalts nnn s
    exact haltsOrCompletes_of_ite rfl (exec_call_halt s nnn) fun h => hok (by have := s.sp.isLt; omega)
  case seByte x kk => exact haltsOrCompletes_of_completes rfl (completes_of_exec_skipIf (exec_seByte x kk s))
  case sneByte x kk => exact haltsOrCompletes_of_completes rfl (completes_of_exec_skipIf (exec_sneByte x kk s))
  case seReg x y => exact haltsOrCompletes_of_completes rfl (completes_of_exec_skipIf (exec_seReg x y s))
  case ldByte x kk => exact haltsOrCompletes_of_completes rfl (completes_of_exec_advance_setV (exec_ldByte x kk s))
  case addByte x kk => exact haltsOrCompletes_of_completes rfl (completes_of_exec_advance_setV (exec_addByte x kk s))
  case ldReg x y => exact haltsOrCompletes_of_completes rfl (completes_of_exec_advance_setV (exec_ldReg x y s))
  case orReg x y => exact haltsOrCompletes_of_completes rfl (completes_of_exec_advance_setV (exec_orReg x y s))
  case andReg x y => exact haltsOrCompletes_of_completes rfl (completes_of_exec_advance_setV (exec_andReg x y s))
  case xorReg x y => exact haltsOrCompletes_of_completes rfl (completes_of_exec_advance_setV (exec_xorReg x y s))
  case addReg x y => exact haltsOrCompletes_of_completes rfl (addSetsTheCarryFlag x y s)
  case subReg x y => exact haltsOrCompletes_of_completes rfl (subtractSetsTheStrictlyGreaterFlag x y s)
  case shr x y => exact haltsOrCompletes_of_completes rfl (shiftsMoveVxByOneAndFlagTheEvictedBit x y s).1
  case subnReg x y => exact haltsOrCompletes_of_completes rfl (reverseSubtractSetsTheStrictlyGreaterFlag x y s)
  case shl x y => exact haltsOrCompletes_of_completes rfl (shiftsMoveVxByOneAndFlagTheEvictedBit x y s).2
  case sneReg x y => exact haltsOrCompletes_of_completes rfl (completes_of_exec_skipIf (exec_sneReg x y s))
  case ldI nnn => exact haltsOrCompletes_of_completes rfl (loadIndexSetsI nnn s)
  case jpV0 nnn => exact haltsOrCompletes_of_completes rfl (indexedJumpAddsV0 nnn s)
  case rnd x kk => exact haltsOrCompletes_of_completes rfl (randomIsTheDrawMasked x kk s).1
  case drw x y n =>
    refine haltsOrCompletes_of_ite rfl (fun h => exec_drw_halt s x y n ?_) fun h =>
      drawXorsTheSpriteAndFlagsCollision x y n s ?_
    · simp only [effAddr]; omega
    · simp only [effAddr]; omega
  case skp x =>
    exact haltsOrCompletes_of_ite rfl (fun h => exec_skp_halt s x (Nat.not_lt.2 h)) fun h =>
      completes_of_exec_skipIf (exec_skp_ok s x (Nat.not_le.1 h))
  case sknp x =>
    exact haltsOrCompletes_of_ite rfl (fun h => exec_sknp_halt s x (Nat.not_lt.2 h)) fun h =>
      completes_of_exec_skipIf (exec_sknp_ok s x (Nat.not_le.1 h))
  case ldVxDT x => exact haltsOrCompletes_of_completes rfl (timerMovesCopyTheDelayTimer x s).1
  case ldDTVx x => exact haltsOrCompletes_of_completes rfl (timerMovesCopyTheDelayTimer x s).2
  case addI x => exact haltsOrCompletes_of_completes rfl (addToIndexWrapsAt65536 x s)
  case ldF x => exact haltsOrCompletes_of_completes rfl (glyphAddressIsFiveTimesVx x s)
  case ldB x =>
    exact haltsOrCompletes_of_ite rfl (fun h => exec_ldB_halt s x (Nat.not_lt.2 h)) fun h =>
      (bcdStoresThreeDigitsOrHalts x s).1 (Nat.not_le.1 h)
  case storeRegs x =>
    exact haltsOrCompletes_of_ite rfl (fun h => exec_storeRegs_halt s x (Nat.not_lt.2 h)) fun h =>
      (bulkStoreStoresTheRangeOrHalts x s).1 (Nat.not_le.1 h)
  case loadRegs x =>
    exact haltsOrCompletes_of_ite rfl (fun h => exec_loadRegs_halt s x (Nat.not_lt.2 h)) fun h =>
      (bulkLoadLoadsTheRangeOrHalts x s).1 (Nat.not_le.1 h)
  case unknown w =>
    exact haltsOrCompletes_of_completes rfl
      ⟨_, exec_unknown w s, (setReport_frame _ s).trans (advance_frame _), advance_advances (s.setReport _)⟩

theorem takeHalt_frame (r : HaltReason) (s : State) : Frame [.run] s (takeHalt r s) := by
  obtain ⟨t, ht, -, hframe⟩ := takeHalt_halts r s
  cases ht
  exact hframe

/-- Whether it completes or halts, an instruction changes `run` and the parts it writes at most. -/
theorem exec_frame {i : Instr} {s t : State} (h : exec i s = .next t) : Frame (.run :: writtenParts i) s t := by
  obtain ⟨r, -, hexec⟩ | ⟨-, u, hexec, hframe, -⟩ := exec_haltsOrCompletes i s
  · cases h.symm.trans hexec
    exact (takeHalt_frame r s).mono (List.cons_subset_cons _ (List.nil_subset _))
  · cases h.symm.trans hexec
    exact hframe.mono (List.subset_cons_self _ _)

theorem mem_writtenParts_of_changed {i : Instr} {s t : State} {p : Part} (h : exec i s = .next t) (hp : p ≠ .run)
    (hchanged : ¬ Unchanged s t p) : p ∈ writtenParts i := by
  by_contra hmem
  exact hchanged (exec_frame h p (List.not_mem_cons_of_ne_of_not_mem hp hmem))

/-! ### Which instructions write what -/

theorem stack_mem_writtenParts {i : Instr} (h : .stack ∈ writtenParts i) : i = .ret ∨ ∃ nnn, i = .call nnn := by
  cases i
  case ret => exact .inl rfl
  case call nnn => exact .inr ⟨nnn, rfl⟩
  all_goals simp [writtenParts] at h

theorem mem_mem_writtenParts {i : Instr} (h : .mem ∈ writtenParts i) : (∃ x, i = .ldB x) ∨ ∃ x, i = .storeRegs x := by
  cases i
  case ldB x => exact .inl ⟨x, rfl⟩
  case storeRegs x => exact .inr ⟨x, rfl⟩
  all_goals simp [writtenParts] at h

theorem fb_mem_writtenParts {i : Instr} (h : .fb ∈ writtenParts i) : i = .cls ∨ ∃ x y n, i = .drw x y n := by
  cases i
  case cls => exact .inl rfl
  case drw x y n => exact .inr ⟨x, y, n, rfl⟩
  all_goals simp [writtenParts] at h

theorem index_mem_writtenParts {i : Instr} (h : .index ∈ writtenParts i) :
    (∃ nnn, i = .ldI nnn) ∨ (∃ x, i = .addI x) ∨ ∃ x, i = .ldF x := by
  cases i
  case ldI nnn => exact .inl ⟨nnn, rfl⟩
  case addI x => exact .inr (.inl ⟨x, rfl⟩)
  case ldF x => exact .inr (.inr ⟨x, rfl⟩)
  all_goals simp [writtenParts] at h

theorem dt_mem_writtenParts {i : Instr} (h : .dt ∈ writtenParts i) : ∃ x, i = .ldDTVx x := by
  cases i
  case ldDTVx x => exact ⟨x, rfl⟩
  all_goals simp [writtenParts] at h

theorem key_not_mem_writtenParts (i : Instr) : .key ∉ writtenParts i := by cases i <;> simp [writtenParts]

theorem host_not_mem_writtenParts (i : Instr) : .host ∉ writtenParts i := by cases i <;> simp [writtenParts]

theorem run_not_mem_writtenParts (i : Instr) : .run ∉ writtenParts i := by cases i <;> simp [writtenParts]

/-- A return changes no slot, whether it completes or halts (R31). -/
theorem ret_stack {s t : State} (h : exec .ret s = .next t) : t.stack = s.stack := by
  by_cases hsp : s.sp.val = 0
  · cases h.symm.trans (exec_ret_halt s hsp)
    rfl
  · cases h.symm.trans (exec_ret_ok s (Nat.pos_of_ne_zero hsp))
    rfl

/-- Settles O20: the stack is a part that `00EE` and `2nnn` alone write, and `00EE` writes no slot. -/
theorem onlyCallAndReturnTouchTheStack : Obligations.OnlyCallAndReturnTouchTheStack := by
  unfold Obligations.OnlyCallAndReturnTouchTheStack
  intro i s t h
  have touches : ¬ Unchanged s t .stack → i = .ret ∨ ∃ nnn, i = .call nnn := fun hchanged =>
    stack_mem_writtenParts (mem_writtenParts_of_changed h (by decide) hchanged)
  refine ⟨fun hsp => touches fun hsame => hsp hsame.1, fun hstack => ?_⟩
  obtain rfl | hcall := touches fun hsame => hstack hsame.2
  · exact absurd (ret_stack h) hstack
  · exact hcall

/-- Settles O21: memory is a part that `Fx33` and `Fx55` alone write, and both leave every byte outside their range. -/
theorem onlyStoresWriteMemory : Obligations.OnlyStoresWriteMemory := by
  unfold Obligations.OnlyStoresWriteMemory
  intro i s t a h hbyte
  have notHalted : ∀ r, exec i s ≠ .next (takeHalt r s) := fun r hhalt => by
    cases h.symm.trans hhalt
    exact hbyte rfl
  obtain ⟨x, rfl⟩ | ⟨x, rfl⟩ :=
    mem_mem_writtenParts (mem_writtenParts_of_changed h (p := .mem) (by decide) fun hsame => hbyte (hsame a))
  · have hfit : effAddr s 2 < 4096 := by
      by_contra hfit
      exact notHalted _ (exec_ldB_halt s x hfit)
    obtain ⟨m, hexec, hget, -⟩ := exec_ldB_ok s x hfit
    cases h.symm.trans hexec
    refine .inl ⟨x, rfl, ?_⟩
    by_contra hout
    exact hbyte ((hget a).trans (if_neg hout))
  · have hfit : effAddr s x.toNat < 4096 := by
      by_contra hfit
      exact notHalted _ (exec_storeRegs_halt s x hfit)
    obtain ⟨m, hexec, hget, -⟩ := exec_storeRegs_ok s x hfit
    cases h.symm.trans hexec
    refine .inr ⟨x, rfl, ?_⟩
    by_contra hout
    exact hbyte ((hget a).trans (if_neg hout))

/-- Settles O22: the framebuffer is a part that `00E0` and `Dxyn` alone write. -/
theorem onlyClearAndDrawWriteTheFramebuffer : Obligations.OnlyClearAndDrawWriteTheFramebuffer := by
  unfold Obligations.OnlyClearAndDrawWriteTheFramebuffer
  exact fun i s t h hfb => fb_mem_writtenParts (mem_writtenParts_of_changed h (by decide) hfb)

/-- Settles O23: `I` is a part that the three alone write. -/
theorem onlyThreeInstructionsWriteI : Obligations.OnlyThreeInstructionsWriteI := by
  unfold Obligations.OnlyThreeInstructionsWriteI
  exact fun i s t h hi => index_mem_writtenParts (mem_writtenParts_of_changed h (by decide) hi)

/-- Settles O25: keys and the host's inputs are parts that no instruction writes, `DT` one that `Fx15` alone writes. -/
theorem instructionsLeaveKeysAndTimerToTheirEvents : Obligations.InstructionsLeaveKeysAndTimerToTheirEvents := by
  unfold Obligations.InstructionsLeaveKeysAndTimerToTheirEvents
  intro i s t h
  have hframe := exec_frame h
  have hkey : t.key = s.key :=
    hframe .key (List.not_mem_cons_of_ne_of_not_mem (by decide) (key_not_mem_writtenParts i))
  obtain ⟨hagenda, hdraw, hopen⟩ : Unchanged s t .host :=
    hframe .host (List.not_mem_cons_of_ne_of_not_mem (by decide) (host_not_mem_writtenParts i))
  exact ⟨hkey, hagenda, hdraw, hopen, fun hdt => dt_mem_writtenParts (mem_writtenParts_of_changed h (by decide) hdt)⟩

/-! ### The flag register -/

/-- An instruction that writes at most the register `x` changes `VF` only where x = F. -/
theorem eq_15_of_regsExcept {x : Nibble} {s t : State} (hregs : RegsExcept [x] s t) (hflag : t.getV 15 ≠ s.getV 15) :
    x = 15 := by
  by_contra hx
  exact hflag (hregs 15 (List.mem_singleton.not.2 (Ne.symm hx)))

/-- An instruction that writes `V[x]` and advances changes `VF` only where x = F. -/
theorem eq_15_of_exec_advance_setV {i : Instr} {x : Nibble} {b : Byte} {s t : State}
    (hexec : exec i s = .next (advance (s.setV x b))) (h : exec i s = .next t) (hflag : t.getV 15 ≠ s.getV 15) :
    x = 15 := by
  cases h.symm.trans hexec
  exact eq_15_of_regsExcept (setV_regsExcept x b s) hflag

/-- A bulk load writes `VF` only as the last of its range. -/
theorem eq_15_of_loadRegs {x : Nibble} {s t : State} (h : exec (.loadRegs x) s = .next t)
    (hflag : t.getV 15 ≠ s.getV 15) : x = 15 := by
  by_cases hfit : effAddr s x.toNat < 4096
  · obtain ⟨u, hexec, -, -, hrest, -⟩ := (bulkLoadLoadsTheRangeOrHalts x s).1 hfit
    cases h.symm.trans hexec
    by_contra hx
    have hne : x.toNat ≠ 15 := fun e => hx (BitVec.eq_of_toNat_eq e)
    have hlt := x.isLt
    exact hflag (hrest 15 (show x.toNat < 15 by omega))
  · cases h.symm.trans (exec_loadRegs_halt s x hfit)
    exact absurd rfl hflag

/-- Settles O24: an instruction that does not write registers leaves `VF`; of those that do, the ones that define no flag
write it as `V[x]` with x = F only. -/
theorem onlyFlagInstructionsOrXFWriteVF : Obligations.OnlyFlagInstructionsOrXFWriteVF := by
  unfold Obligations.OnlyFlagInstructionsOrXFWriteVF
  intro i s t h hflag
  have hregs : .regs ∈ writtenParts i :=
    mem_writtenParts_of_changed h (p := .regs) (by decide) fun hsame => hflag (hsame 15)
  cases i
  case addReg x y => exact .inl ⟨x, y, .inl rfl⟩
  case subReg x y => exact .inl ⟨x, y, .inr (.inl rfl)⟩
  case shr x y => exact .inl ⟨x, y, .inr (.inr (.inl rfl))⟩
  case subnReg x y => exact .inl ⟨x, y, .inr (.inr (.inr (.inl rfl)))⟩
  case shl x y => exact .inl ⟨x, y, .inr (.inr (.inr (.inr rfl)))⟩
  case drw x y n => exact .inr (.inl ⟨x, y, n, rfl⟩)
  case ldByte x kk =>
    obtain rfl := eq_15_of_exec_advance_setV (exec_ldByte x kk s) h hflag
    exact .inr (.inr (.inl ⟨kk, .inl rfl⟩))
  case addByte x kk =>
    obtain rfl := eq_15_of_exec_advance_setV (exec_addByte x kk s) h hflag
    exact .inr (.inr (.inl ⟨kk, .inr (.inl rfl)⟩))
  case rnd x kk =>
    cases h.symm.trans (exec_rnd x kk s)
    obtain rfl := eq_15_of_regsExcept (setV_regsExcept x _ s) hflag
    exact .inr (.inr (.inl ⟨kk, .inr (.inr rfl)⟩))
  case ldReg x y =>
    obtain rfl := eq_15_of_exec_advance_setV (exec_ldReg x y s) h hflag
    exact .inr (.inr (.inr (.inl ⟨y, .inl rfl⟩)))
  case orReg x y =>
    obtain rfl := eq_15_of_exec_advance_setV (exec_orReg x y s) h hflag
    exact .inr (.inr (.inr (.inl ⟨y, .inr (.inl rfl)⟩)))
  case andReg x y =>
    obtain rfl := eq_15_of_exec_advance_setV (exec_andReg x y s) h hflag
    exact .inr (.inr (.inr (.inl ⟨y, .inr (.inr (.inl rfl))⟩)))
  case xorReg x y =>
    obtain rfl := eq_15_of_exec_advance_setV (exec_xorReg x y s) h hflag
    exact .inr (.inr (.inr (.inl ⟨y, .inr (.inr (.inr rfl))⟩)))
  case ldVxDT x =>
    obtain rfl := eq_15_of_exec_advance_setV (exec_ldVxDT x s) h hflag
    exact .inr (.inr (.inr (.inr (.inl rfl))))
  case loadRegs x =>
    obtain rfl := eq_15_of_loadRegs h hflag
    exact .inr (.inr (.inr (.inr (.inr rfl))))
  all_goals simp [writtenParts] at hregs

end Sys2Proof.Machine
end

section
/-! PROOFS. A STEP (spec/40_flow.md, rule R120; spec/60_exceptions.md, rules R210 to R215 and R225). -/

set_option autoImplicit false

namespace Sys2Proof.Machine

theorem stepEvent_of_ready {d : Option Byte} {s : State} (hready : s.run = .ready) :
    stepEvent d s = runInstruction (beginStep d s) := by
  simp only [stepEvent, hready]

/-- A STEP in `Ready` halts where `stepHaltCause` says, and else is the decoded instruction, which completes. -/
theorem stepEvent_ready {d : Option Byte} {s : State} (hready : s.run = .ready) :
    (∃ r, stepHaltCause s = some r ∧ stepEvent d s = .next (takeHalt r (beginStep d s))) ∨
      (stepHaltCause s = none ∧ ∃ t, stepEvent d s = .next t ∧
        Frame (writtenParts (decode (wordAtPc s))) (beginStep d s) t) := by
  rw [stepEvent_of_ready hready]
  obtain ⟨hpc, hrun⟩ | ⟨hpc, hrun⟩ := runInstruction_cases (beginStep d s)
  · exact .inl ⟨.outOfBounds, if_pos (Nat.le_of_succ_le_succ hpc), hrun⟩
  · rw [hrun]
    have hcause : stepHaltCause s = haltCause (beginStep d s) (decode (wordAtPc s)) :=
      if_neg (Nat.not_le.2 (Nat.lt_of_succ_lt_succ hpc))
    rw [hcause]
    obtain ⟨r, hr, hexec⟩ | ⟨hnone, t, hexec, hframe, -⟩ :=
      exec_haltsOrCompletes (decode (wordAtPc s)) (beginStep d s)
    · exact .inl ⟨r, hr, hexec⟩
    · exact .inr ⟨hnone, t, hexec, hframe⟩

/-- Settles O15: the two cases of a STEP in `Ready`, of which the one that completes leaves `run`. -/
theorem stepHaltsExactlyOnTheFatalConditions : Obligations.StepHaltsExactlyOnTheFatalConditions := by
  unfold Obligations.StepHaltsExactlyOnTheFatalConditions
  intro d s hready
  obtain ⟨r, hcause, hstep⟩ | ⟨hcause, t, hstep, hframe⟩ := stepEvent_ready (d := d) hready
  · rw [hcause, happen, hstep]
    exact takeHalt_halts r _
  · rw [hcause]
    exact ⟨t, hstep, Eq.trans (hframe .run (run_not_mem_writtenParts _)) hready⟩

/-- Every STEP answers a next state with the host's inputs as the STEP has set them. -/
theorem stepEvent_next (d : Option Byte) (s : State) :
    ∃ t, stepEvent d s = .next t ∧ Unchanged (beginStep d s) t .host := by
  obtain ⟨r, -, hstep⟩ | ⟨hready, -⟩ := stepEvent_cases d s
  · exact ⟨_, hstep, rfl, rfl, rfl⟩
  obtain ⟨r, -, hstep⟩ | ⟨-, t, hstep, hframe⟩ := stepEvent_ready (d := d) hready
  · exact ⟨_, hstep, rfl, rfl, rfl⟩
  · exact ⟨t, hstep, hframe .host (host_not_mem_writtenParts _)⟩

theorem stepEvent_halted {d : Option Byte} {s : State} {r : HaltReason} (h : s.run = .halted r) :
    stepEvent d s = .next (beginStep d s) := by
  simp only [stepEvent, h]

theorem stepEvent_fetched {d : Option Byte} {s : State} (hready : s.run = .ready) (hpc : s.pc.toNat + 1 < 4096) :
    stepEvent d s = exec (decode (wordAtPc s)) (beginStep d s) := by
  obtain ⟨hpc', -⟩ | ⟨-, hrun⟩ := runInstruction_cases (beginStep d s)
  · exact absurd hpc (Nat.not_lt.2 hpc')
  · exact (stepEvent_of_ready hready).trans hrun

theorem stepEvent_unfetched {d : Option Byte} {s : State} (hready : s.run = .ready) (hpc : ¬ s.pc.toNat + 1 < 4096) :
    stepEvent d s = .next (takeHalt .outOfBounds (beginStep d s)) := by
  obtain ⟨-, hrun⟩ | ⟨hpc', -⟩ := runInstruction_cases (beginStep d s)
  · exact (stepEvent_of_ready hready).trans hrun
  · exact absurd hpc' hpc

theorem step_of_nil {s : State} (h : s.agenda = []) : step s = stepEvent none s := by
  obtain ⟨-, hstep⟩ | ⟨e, rest, hagenda, -⟩ := step_cases s
  · exact hstep
  · rw [h] at hagenda
    cases hagenda

/-- Where the agenda is not empty, the step is the event at its head. -/
theorem step_of_agenda {e : Event} {rest : List Event} {s : State} (h : s.agenda = e :: rest) :
    step s = happen e { s with agenda := rest } := by
  simp only [step, nextEvent, h]

/-- Settles O13: with an empty agenda or a STEP at its head the step is a STEP, and its fetch is the word at `pc`. -/
theorem stepExecutesTheDecodedInstruction : Obligations.StepExecutesTheDecodedInstruction := by
  unfold Obligations.StepExecutesTheDecodedInstruction
  intro s i hready hpc hbytes
  have hdecode : decode (wordAtPc s) = i := by
    cases hbytes
    rfl
  subst hdecode
  exact ⟨fun hagenda => (step_of_nil hagenda).trans (stepEvent_fetched hready hpc), fun d rest hagenda =>
    (step_of_agenda hagenda).trans (stepEvent_fetched (s := { s with agenda := rest }) hready hpc)⟩

/-- The model's record of the event: only the host's inputs and the report differ. -/
theorem record_frame (agenda : List Event) (draw : Option Byte) (report : Option Report) (loadOpen : Bool) (s : State) :
    Frame [.host, .report] s
      { s with agenda := agenda, draw := draw, report := report, loadOpen := loadOpen } := by
  intro p hp
  cases p
  case host | report => exact absurd (by simp) hp
  all_goals simp [Unchanged, State.getV, State.byteAt]

/-- Settles O14: a STEP in `Halted` only begins. -/
theorem haltedStepDoesNothing : Obligations.HaltedStepDoesNothing := by
  unfold Obligations.HaltedStepDoesNothing
  intro s r d h
  exact ⟨beginStep d s, stepEvent_halted h, h, record_frame s.agenda d none false s, rfl, rfl⟩

/-! ### The end of a run -/

theorem finished_iff (s : State) : s.finished = true ↔
    s.run = .ready ∧ ∃ w, fetch s = .ok w ∧ encode (.jp (fieldNNN w)) = w ∧ immAddr (fieldNNN w) = s.pc := by
  unfold State.finished
  cases fetch s <;> simp [State.safe]

/-- Settles O19: the word at `pc` decodes to the jump it encodes, which writes to `pc` what `pc` holds. -/
theorem finishedRunStaysFinished : Obligations.FinishedRunStaysFinished := by
  unfold Obligations.FinishedRunStaysFinished
  intro s d hfinished
  refine ⟨?_, hfinished⟩
  obtain ⟨hready, w, hfetch, hjump, hself⟩ := (finished_iff s).1 hfinished
  have hpc : s.pc.toNat + 1 < 4096 := by
    rw [fetch_eq] at hfetch
    by_contra hpc
    rw [if_neg hpc] at hfetch
    cases hfetch
  cases (fetch_ok hpc).symm.trans hfetch
  have hdecode : decode (wordAtPc s) = .jp (fieldNNN (wordAtPc s)) := by
    rw [← decode_encode (i := .jp (fieldNNN (wordAtPc s))) rfl, hjump]
  rw [happen, stepEvent_fetched hready hpc, hdecode, exec_jp, hself]
  rfl

end Sys2Proof.Machine
end

section
/-! PROOFS. The events (spec/10_state.md, rules R38 to R41; spec/60_exceptions.md, rules R214, R226, R229 and R231). -/

set_option autoImplicit false

namespace Sys2Proof.Machine

theorem loadEvent_tooLarge {bytes : List Byte} {s : State} (hopen : s.loadOpen = true)
    (hlarge : 4096 < 512 + bytes.length) :
    loadEvent bytes s = .next (takeHalt .programTooLarge { s with report := none, loadOpen := false }) := by
  have : ¬ Config.loadAddr + bytes.length ≤ Config.memSize := Nat.not_le.2 hlarge
  simp only [loadEvent, hopen, if_true, if_neg this]

theorem loadEvent_refused {bytes : List Byte} {s : State} (hopen : s.loadOpen = false) :
    loadEvent bytes s = .refused .loadOutOfTurn := by
  simp only [loadEvent, hopen, Bool.false_eq_true, if_false]

/-- A LOAD that answers a next state was legal; it writes memory or halts, and closes the LOAD. -/
theorem loadEvent_cases {bytes : List Byte} {s t : State} (h : loadEvent bytes s = .next t) :
    s.loadOpen = true ∧ t.loadOpen = false ∧
      ((∃ m, t = ({ s with report := none, loadOpen := false } : State).setMem m ∧
          (Memory.wf s.mem = true → Memory.wf m = true)) ∨
        t = takeHalt .programTooLarge { s with report := none, loadOpen := false }) := by
  cases hopen : s.loadOpen
  · rw [loadEvent_refused hopen] at h
    cases h
  by_cases hfit : 512 + bytes.length ≤ 4096
  · obtain ⟨m, hload, -, hwf⟩ := loadEvent_ok hopen hfit
    cases h.symm.trans hload
    exact ⟨rfl, rfl, .inl ⟨m, rfl, hwf⟩⟩
  · cases h.symm.trans (loadEvent_tooLarge hopen (Nat.not_le.1 hfit))
    exact ⟨rfl, rfl, .inr rfl⟩

/-- Every event answers a next state, but for a LOAD where none is legal. -/
theorem happen_next (e : Event) (s : State) : (∃ t, happen e s = .next t) ∨
    (happen e s = .refused .loadOutOfTurn ∧ s.loadOpen = false ∧ ∃ bytes, e = .load bytes) := by
  cases e
  case reset | tick | key => exact .inl ⟨_, rfl⟩
  case step d =>
    obtain ⟨t, hstep, -⟩ := stepEvent_next d s
    exact .inl ⟨t, hstep⟩
  case load bytes =>
    cases hopen : s.loadOpen
    · exact .inr ⟨loadEvent_refused hopen, rfl, bytes, rfl⟩
    by_cases hfit : 512 + bytes.length ≤ 4096
    · obtain ⟨m, hload, -⟩ := loadEvent_ok hopen hfit
      exact .inl ⟨_, hload⟩
    · exact .inl ⟨_, loadEvent_tooLarge hopen (Nat.not_le.1 hfit)⟩

/-- Settles O18: the step is a STEP, which completes, or the event at the head of the agenda. -/
theorem everyStepCompletesButALateLoad : Obligations.EveryStepCompletesButALateLoad := by
  unfold Obligations.EveryStepCompletesButALateLoad
  intro s
  obtain ⟨-, hstep⟩ | ⟨e, rest, hagenda, hstep⟩ := step_cases s
  · obtain ⟨t, ht, -⟩ := stepEvent_next none s
    exact .inl ⟨t, hstep.trans ht⟩
  · rw [hstep, hagenda]
    obtain hnext | ⟨hrefused, hopen, bytes, rfl⟩ := happen_next e { s with agenda := rest }
    · exact .inl hnext
    · exact .inr ⟨hrefused, hopen, bytes, rest, rfl⟩

/-- No row of the table of R210 gives InvalidRegister. -/
theorem haltCause_ne_invalidRegister (s : State) (i : Instr) : haltCause s i ≠ some .invalidRegister := by
  cases i
  case ret | call | drw | ldB | storeRegs | loadRegs | skp | sknp =>
    unfold haltCause
    split <;> simp
  all_goals simp [haltCause]

theorem stepHaltCause_ne_invalidRegister (s : State) : stepHaltCause s ≠ some .invalidRegister := by
  unfold stepHaltCause
  split
  · simp
  · exact haltCause_ne_invalidRegister s _

/-- Settles O16: RESET leads to `Ready`, a LOAD halts with ProgramTooLarge, a STEP for a reason of the table of R210, and
no event else writes `run`. -/
theorem invalidRegisterIsNeverRaised : Obligations.InvalidRegisterIsNeverRaised := by
  unfold Obligations.InvalidRegisterIsNeverRaised
  intro e s t h hrun
  cases e
  case reset => cases h; cases hrun
  case tick | key => cases h; exact hrun
  case load bytes =>
    obtain ⟨-, -, ⟨m, rfl, -⟩ | rfl⟩ := loadEvent_cases h
    · exact hrun
    · cases hrun
  case step d =>
    cases hs : s.run with
    | halted r =>
      cases h.symm.trans (stepEvent_halted hs)
      exact hs.symm.trans hrun
    | ready =>
      obtain ⟨r, hcause, hstep⟩ | ⟨-, u, hstep, hframe⟩ := stepEvent_ready (d := d) hs
      · cases h.symm.trans hstep
        cases hrun
        exact absurd hcause (stepHaltCause_ne_invalidRegister s)
      · cases h.symm.trans hstep
        have hready : t.run = .ready := Eq.trans (hframe .run (run_not_mem_writtenParts _)) hs
        rw [hready] at hrun
        cases hrun

/-- Settles O17: in `Halted` a STEP only begins, TICK and KEY do not write `run`, and no LOAD is legal. -/
theorem onlyResetLeavesHalted : Obligations.OnlyResetLeavesHalted := by
  unfold Obligations.OnlyResetLeavesHalted
  intro e s t r hrun hopen hne h
  cases e
  case reset => exact absurd rfl hne
  case tick | key => cases h; exact hrun
  case step d => cases h.symm.trans (stepEvent_halted hrun); exact hrun
  case load bytes => cases h.symm.trans (loadEvent_refused hopen)

/-- Settles O30: a STEP and a LOAD close the LOAD. -/
theorem loadAfterLoadOrStepIsRefused : Obligations.LoadAfterLoadOrStepIsRefused := by
  unfold Obligations.LoadAfterLoadOrStepIsRefused
  rintro s t e bytes (⟨d, rfl⟩ | ⟨b, rfl⟩) h
  · obtain ⟨u, hstep, -, -, hopen⟩ := stepEvent_next d s
    cases h.symm.trans hstep
    exact loadEvent_refused hopen
  · obtain ⟨-, hopen, -⟩ := loadEvent_cases h
    exact loadEvent_refused hopen

/-- Settles O27: TICK writes `DT` and the record of the event. -/
theorem tickCountsDownToZero : Obligations.TickCountsDownToZero := by
  unfold Obligations.TickCountsDownToZero
  intro s rest hagenda
  have hframe := (record_frame rest s.draw none s.loadOpen s).trans
    (setDt_frame (if s.dt = 0 then 0 else s.dt - 1) _)
  refine ⟨_, step_of_agenda hagenda, ?_, hframe.mono (by decide), rfl, rfl, rfl, rfl⟩
  show (if s.dt = 0 then 0 else s.dt - 1).toNat = s.dt.toNat - 1
  split
  · next h => rw [h]; rfl
  · next h =>
    have hpos : s.dt.toNat ≠ 0 := fun e => h (BitVec.eq_of_toNat_eq e)
    have hlt := s.dt.isLt
    rw [byte_sub_toNat]
    show (s.dt.toNat + 256 - 1) % 256 = s.dt.toNat - 1
    omega

theorem setKey_frame (k : Nibble) (pressed : Bool) (s : State) : Frame [.key] s (s.setKey k pressed) := by
  intro p hp
  cases p
  case key => exact absurd (List.mem_singleton.2 rfl) hp
  all_goals simp [Unchanged]

/-- Settles O28: KEY writes one key and the record of the event. -/
theorem keySetsOneKey : Obligations.KeySetsOneKey := by
  unfold Obligations.KeySetsOneKey
  intro s k pressed rest hagenda
  have hframe := (record_frame rest s.draw none s.loadOpen s).trans (setKey_frame k pressed _)
  refine ⟨_, step_of_agenda hagenda, ?_, fun j hj => ?_, hframe.mono (by decide), rfl, rfl, rfl, rfl⟩
  · exact (State.setKey_getKey s k k pressed).trans (if_pos rfl)
  · exact (State.setKey_getKey s k j pressed).trans (if_neg hj)

/-- Settles O29: the two outcomes of a legal LOAD, each besides the record of the event. -/
theorem loadCopiesTheProgramOrHalts : Obligations.LoadCopiesTheProgramOrHalts := by
  unfold Obligations.LoadCopiesTheProgramOrHalts
  intro s bytes rest hagenda hopen
  have hrecord := record_frame rest s.draw none false s
  refine ⟨fun hfit => ?_, fun hlarge => ?_⟩
  · obtain ⟨m, hload, hget, -⟩ := loadEvent_ok (s := { s with agenda := rest }) hopen hfit
    refine ⟨_, (step_of_agenda hagenda).trans hload, fun k hk => ?_, fun a ha => ?_,
      (hrecord.trans (setMem_frame m _)).mono (by decide), rfl, rfl, rfl, rfl⟩
    · rw [State.setMem_byteAt, hget, if_pos (by omega), Nat.add_sub_cancel_left]
    · rw [State.setMem_byteAt, hget, if_neg (by omega)]
      rfl
  · exact ⟨_, (step_of_agenda hagenda).trans (loadEvent_tooLarge hopen hlarge), rfl,
      (hrecord.trans (takeHalt_frame .programTooLarge _)).mono (by decide), rfl, rfl, rfl, rfl⟩

/-- Settles O31: RESET answers the reset state with the agenda and the draw count kept. -/
theorem resetEventGivesTheResetState : Obligations.ResetEventGivesTheResetState := by
  unfold Obligations.ResetEventGivesTheResetState
  intro s rest hagenda
  refine ⟨_, step_of_agenda hagenda, fun p hp => ?_, rfl, rfl, rfl⟩
  cases p
  case host | draws => exact absurd (by simp) hp
  case stack => exact ⟨rfl, rfl⟩
  case regs | mem => exact fun _ => rfl
  all_goals rfl

end Sys2Proof.Machine
end

section
/-! PROOFS. The state after RESET (spec/10_state.md, rule R46; spec/20_memory.md, rule R66). -/

set_option autoImplicit false

namespace Sys2Proof.Machine

theorem reset_byteAt (a : Nat) : State.reset.byteAt a = fontTable.getD a 0 := rfl

/-- Settles O1: the fields of the reset state, and from address 80 on there is no font byte. -/
theorem resetLeavesEverythingButTheFontZeroAndPcAtLoadAddress :
    Obligations.ResetLeavesEverythingButTheFontZeroAndPcAtLoadAddress := by
  unfold Obligations.ResetLeavesEverythingButTheFontZeroAndPcAtLoadAddress
  refine ⟨fun z => Vector.getElem_replicate z.isLt, rfl, rfl, rfl, fun k => Vector.getElem_replicate k.isLt,
    fun a ha => ?_, fun c _ => fbCell_replicate_zero c, rfl, fun k => Vector.getElem_replicate k.isLt, rfl⟩
  rw [reset_byteAt, List.getD_eq_default]
  exact ha

/-- Settles O2: the font table's low nibbles and the glyph of the digit A are evaluated. -/
theorem resetFontHasFourPixelGlyphs : Obligations.ResetFontHasFourPixelGlyphs := by
  unfold Obligations.ResetFontHasFourPixelGlyphs
  decide

/-- Settles O3: memory lists nothing, `pc` is 0x200, the slots are 0 and the core is `Ready`. -/
theorem invariantHoldsAtReset : Obligations.InvariantHoldsAtReset := by
  unfold Obligations.InvariantHoldsAtReset
  exact ⟨Memory.reset_wf, by decide, by decide, fun _ => rfl⟩

end Sys2Proof.Machine
end

section
/-! PROOFS. The machine invariant (spec/10_state.md, rule R26): each write an instruction ends in keeps it, and so does every
event. -/

set_option autoImplicit false

namespace Sys2Proof.Machine

theorem MachineInv.mem_wf {s : State} (h : MachineInv s) : Memory.wf s.mem = true := h.1

theorem MachineInv.slots_le {s : State} (h : MachineInv s) : ∀ k : Fin 16, (s.stack[k.val]).toNat ≤ 4096 := by
  obtain ⟨-, -, hslots, -⟩ := h
  exact hslots

/-! The invariant speaks of memory, `pc`, the stack, `run` and the legality of a LOAD only: a write to any other part keeps
it by definition. The other writes: -/

theorem MachineInv.setPc {s : State} (h : MachineInv s) {w : Word} (hw : w.toNat ≤ 0x10FE) : MachineInv (s.setPc w) := by
  obtain ⟨hmem, -, hslots, hopen⟩ := h
  exact ⟨hmem, hw, hslots, hopen⟩

theorem MachineInv.skipIf {s : State} (h : MachineInv s) (hpc : s.pc.toNat + 1 < 4096) (c : Bool) :
    MachineInv (skipIf c s) := by
  have hnext := skipIf_advances c s
  rw [Advances] at hnext
  rw [skipIf_eq] at hnext ⊢
  refine h.setPc ?_
  rw [State.setPc_pc] at hnext
  rw [hnext]
  split <;> omega

theorem MachineInv.advance {s : State} (h : MachineInv s) (hpc : s.pc.toNat + 1 < 4096) : MachineInv (advance s) :=
  MachineInv.skipIf h hpc false

theorem MachineInv.setMem {s : State} (h : MachineInv s) {m : List Host.Cell} (hm : Memory.wf m = true) :
    MachineInv (s.setMem m) := by
  obtain ⟨-, hpc, hslots, hopen⟩ := h
  exact ⟨hm, hpc, hslots, hopen⟩

theorem MachineInv.setStack {s : State} (h : MachineInv s) {n : Fin 17} {stack : Vector Word 16}
    (hstack : ∀ k : Fin 16, (stack[k.val]).toNat ≤ 4096) : MachineInv (s.setStack n stack) := by
  obtain ⟨hmem, hpc, -, hopen⟩ := h
  exact ⟨hmem, hpc, hstack, hopen⟩

/-- Where no LOAD is legal, a halt keeps the invariant. -/
theorem MachineInv.takeHalt {s : State} (h : MachineInv s) (hclosed : s.loadOpen = false) (r : HaltReason) :
    MachineInv (takeHalt r s) := by
  obtain ⟨hmem, hpc, hslots, -⟩ := h
  exact ⟨hmem, hpc, hslots, fun hopen => Bool.noConfusion (hclosed.symm.trans hopen)⟩

/-- Closing the LOAD keeps the invariant, whatever `run` is. -/
theorem MachineInv.beginStep {s : State} (h : MachineInv s) (d : Option Byte) : MachineInv (beginStep d s) := by
  obtain ⟨hmem, hpc, hslots, -⟩ := h
  exact ⟨hmem, hpc, hslots, fun hopen => Bool.noConfusion hopen⟩

section
variable {s t : State} (hinv : MachineInv s)
include hinv

/-- A return goes to a slot, and every slot is in reach. -/
theorem exec_ret_keeps_inv (hclosed : s.loadOpen = false) (h : exec .ret s = .next t) : MachineInv t := by
  by_cases hsp : s.sp.val = 0
  · cases h.symm.trans (exec_ret_halt s hsp)
    exact hinv.takeHalt hclosed _
  · cases h.symm.trans (exec_ret_ok s (Nat.pos_of_ne_zero hsp))
    have htop := hinv.slots_le ⟨s.sp.val - 1, by have := s.sp.isLt; omega⟩
    exact (hinv.setStack hinv.slots_le).setPc (htop.trans (by decide))

/-- A call pushes the address after itself, which is at most 4096. -/
theorem exec_call_keeps_inv (hclosed : s.loadOpen = false) (hpc : s.pc.toNat + 1 < 4096) {nnn : Addr}
    (h : exec (.call nnn) s = .next t) : MachineInv t := by
  by_cases hsp : s.sp.val = 16
  · cases h.symm.trans (exec_call_halt s nnn hsp)
    exact hinv.takeHalt hclosed _
  · have hsp' : s.sp.val < 16 := by have := s.sp.isLt; omega
    cases h.symm.trans (exec_call_ok s nnn hsp')
    refine (hinv.setStack fun k => ?_).setPc ?_
    · by_cases hk : s.sp.val = k.val
      · simp only [← hk, Vector.getElem_set_self, State.nextPc_toNat]
        omega
      · rw [Vector.getElem_set_ne hsp' k.isLt hk]
        exact hinv.slots_le k
    · have := nnn.isLt
      rw [immAddr_toNat]
      omega

/-- From a `pc` that a fetch has accepted, every instruction keeps the invariant: it ends in an advance or a skip, a jump of
at most 0xFFF + 0xFF, a return, or a halt. -/
theorem exec_keeps_inv (hclosed : s.loadOpen = false) (hpc : s.pc.toNat + 1 < 4096) {i : Instr}
    (h : exec i s = .next t) : MachineInv t := by
  cases i
  case ret => exact exec_ret_keeps_inv hinv hclosed h
  case call nnn => exact exec_call_keeps_inv hinv hclosed hpc h
  case jp nnn =>
    cases h
    have := nnn.isLt
    exact hinv.setPc (by rw [immAddr_toNat]; omega)
  case jpV0 nnn =>
    cases h
    have := nnn.isLt
    have := (s.getV 0).isLt
    exact hinv.setPc (by rw [immAddr_add_byte_toNat]; omega)
  case seByte | sneByte | seReg | sneReg => cases h; exact hinv.skipIf hpc _
  case skp x =>
    by_cases hkey : (s.getV x).toNat < 16
    · cases h.symm.trans (exec_skp_ok s x hkey); exact hinv.skipIf hpc _
    · cases h.symm.trans (exec_skp_halt s x hkey); exact hinv.takeHalt hclosed _
  case sknp x =>
    by_cases hkey : (s.getV x).toNat < 16
    · cases h.symm.trans (exec_sknp_ok s x hkey); exact hinv.skipIf hpc _
    · cases h.symm.trans (exec_sknp_halt s x hkey); exact hinv.takeHalt hclosed _
  case drw x y n =>
    by_cases hfit : n.toNat = 0 ∨ effAddr s n.toNat ≤ 4096
    · cases h.symm.trans (exec_drw_ok s x y n hfit); exact hinv.advance hpc
    · cases h.symm.trans (exec_drw_halt s x y n hfit); exact hinv.takeHalt hclosed _
  case ldB x =>
    by_cases hfit : effAddr s 2 < 4096
    · obtain ⟨m, hexec, -, hwf⟩ := exec_ldB_ok s x hfit
      cases h.symm.trans hexec
      exact (hinv.setMem (hwf hinv.mem_wf)).advance hpc
    · cases h.symm.trans (exec_ldB_halt s x hfit); exact hinv.takeHalt hclosed _
  case storeRegs x =>
    by_cases hfit : effAddr s x.toNat < 4096
    · obtain ⟨m, hexec, -, hwf⟩ := exec_storeRegs_ok s x hfit
      cases h.symm.trans hexec
      exact (hinv.setMem (hwf hinv.mem_wf)).advance hpc
    · cases h.symm.trans (exec_storeRegs_halt s x hfit); exact hinv.takeHalt hclosed _
  case loadRegs x =>
    by_cases hfit : effAddr s x.toNat < 4096
    · obtain ⟨v, hexec, -⟩ := exec_loadRegs_ok s x hfit
      cases h.symm.trans hexec
      exact MachineInv.advance (s := { s with v := v }) hinv hpc
    · cases h.symm.trans (exec_loadRegs_halt s x hfit); exact hinv.takeHalt hclosed _
  all_goals cases h; exact MachineInv.advance hinv hpc

theorem stepEvent_keeps_inv {d : Option Byte} (h : stepEvent d s = .next t) : MachineInv t := by
  have hbegin := hinv.beginStep d
  obtain ⟨r, -, hstep⟩ | ⟨-, hstep⟩ := stepEvent_cases d s
  · cases h.symm.trans hstep
    exact hbegin
  obtain ⟨-, hrun⟩ | ⟨hpc, hrun⟩ := runInstruction_cases (beginStep d s)
  · cases h.symm.trans (hstep.trans hrun)
    exact hbegin.takeHalt rfl _
  · exact exec_keeps_inv hbegin rfl hpc (hrun.symm.trans (hstep.symm.trans h))

theorem happen_keeps_inv {e : Event} (h : happen e s = .next t) : MachineInv t := by
  cases e
  case reset => cases h; exact invariantHoldsAtReset
  case tick | key => cases h; exact hinv
  case step d => exact stepEvent_keeps_inv hinv h
  case load bytes =>
    obtain ⟨-, -, ⟨m, rfl, hwf⟩ | rfl⟩ := loadEvent_cases h
    · exact (hinv.beginStep s.draw).setMem (hwf hinv.mem_wf)
    · exact (hinv.beginStep s.draw).takeHalt rfl _

end

/-- Settles O4: the step is a STEP or the event at the head of the agenda, and both keep the invariant. -/
theorem invariantIsKeptByEveryStep : Obligations.InvariantIsKeptByEveryStep := by
  unfold Obligations.InvariantIsKeptByEveryStep
  intro s t hinv h
  obtain ⟨-, hstep⟩ | ⟨e, rest, -, hstep⟩ := step_cases s
  · exact stepEvent_keeps_inv hinv (hstep.symm.trans h)
  · exact happen_keeps_inv (s := { s with agenda := rest }) hinv (hstep.symm.trans h)

end Sys2Proof.Machine
end

section
/-! PROOFS. Stale slots of the call stack (spec/10_state.md, rules R27 and R31; decision D6): every operation but a push and a
pop commutes with replacing the stack. -/

set_option autoImplicit false

namespace Sys2Proof.Machine

/-- An outcome with its next state changed, where there is one. -/
def mapNext (f : State → State) : Host.Outcome State Fault Refusal → Host.Outcome State Fault Refusal
  | .next t => .next (f t)
  | .fault r => .fault r
  | .refused r => .refused r

/-- The two stores and the bulk load end in an advance. -/
theorem exec_ldB (x : Nibble) (s : State) :
    exec (.ldB x) s = finish s ((writeRange (effAddr s 0) (bcdDigits (s.getV x)) s).map advance) := by
  simp only [exec, execLdB]
  cases writeRange (effAddr s 0) (bcdDigits (s.getV x)) s <;> rfl

theorem exec_storeRegs (x : Nibble) (s : State) :
    exec (.storeRegs x) s = finish s ((writeRange (effAddr s 0) (registerRange x s) s).map advance) := by
  simp only [exec, execStoreRegs]
  cases writeRange (effAddr s 0) (registerRange x s) s <;> rfl

theorem exec_loadRegs (x : Nibble) (s : State) : exec (.loadRegs x) s =
    finish s (((readRange (effAddr s 0) (rangeLength x) s).map fun bs => setRegisters 0 bs s).map advance) := by
  simp only [exec, execLoadRegs]
  cases readRange (effAddr s 0) (rangeLength x) s <;> rfl

/-- A legal LOAD that fits, by what its writes lead to. -/
theorem loadEvent_of_written {bytes : List Byte} {s t : State} (hopen : s.loadOpen = true)
    (hfit : 512 + bytes.length ≤ 4096)
    (hwrite : writeRange 512 bytes { s with report := none, loadOpen := false } = .ok t) :
    loadEvent bytes s = .next t := by
  simp only [loadEvent, hopen, if_true, Config.loadAddr, Config.memSize, hfit, hwrite, finish_ok]

section
variable (n : Fin 17) (stack : Vector Word 16)

/-- An execute phase that ends in an advance. -/
theorem finish_advance_setStack (s : State) (r : Except HaltReason State) :
    finish (s.setStack n stack) ((r.map (·.setStack n stack)).map advance) =
      mapNext (·.setStack n stack) (finish s (r.map advance)) := by
  cases r <;> rfl

theorem writeRange_setStack (a : Nat) (bs : List Byte) (s : State) :
    writeRange a bs (s.setStack n stack) = (writeRange a bs s).map (·.setStack n stack) := by
  induction bs generalizing a s with
  | nil => rfl
  | cons b bs ih =>
    simp only [writeRange, memWrite_eq]
    by_cases h : a < 4096
    · simp only [if_pos h]
      exact ih (a + 1) (s.setMem (Memory.put s.mem a b))
    · simp only [if_neg h]
      rfl

theorem readRange_setStack (a k : Nat) (s : State) : readRange a k (s.setStack n stack) = readRange a k s := by
  rw [readRange_eq, readRange_eq]
  rfl

theorem setRegisters_setStack (j : Nat) (bs : List Byte) (s : State) :
    setRegisters j bs (s.setStack n stack) = (setRegisters j bs s).setStack n stack := by
  induction bs generalizing j s with
  | nil => rfl
  | cons b bs ih =>
    simp only [setRegisters]
    rw [← ih]
    congr 1
    split <;> rfl

theorem skipIf_setStack (c : Bool) (s : State) : skipIf c (s.setStack n stack) = (skipIf c s).setStack n stack := by
  rw [skipIf_eq, skipIf_eq]
  rfl

/-- Every instruction but `2nnn` and `00EE` does the same whatever the stack is, and keeps it. -/
theorem exec_setStack {i : Instr} (h : .stack ∉ writtenParts i) (s : State) :
    exec i (s.setStack n stack) = mapNext (·.setStack n stack) (exec i s) := by
  cases i
  case ret | call => simp [writtenParts] at h
  case seByte | sneByte | seReg | sneReg => exact congrArg Host.Outcome.next (skipIf_setStack n stack _ s)
  case skp x =>
    by_cases hkey : (s.getV x).toNat < 16
    · rw [exec_skp_ok s x hkey, exec_skp_ok (s.setStack n stack) x hkey, skipIf_setStack]
      rfl
    · rw [exec_skp_halt s x hkey, exec_skp_halt (s.setStack n stack) x hkey]
      rfl
  case sknp x =>
    by_cases hkey : (s.getV x).toNat < 16
    · rw [exec_sknp_ok s x hkey, exec_sknp_ok (s.setStack n stack) x hkey, skipIf_setStack]
      rfl
    · rw [exec_sknp_halt s x hkey, exec_sknp_halt (s.setStack n stack) x hkey]
      rfl
  case drw x y k =>
    by_cases hfit : k.toNat = 0 ∨ effAddr s k.toNat ≤ 4096
    · rw [exec_drw_ok s x y k hfit, exec_drw_ok (s.setStack n stack) x y k hfit]
      rfl
    · rw [exec_drw_halt s x y k hfit, exec_drw_halt (s.setStack n stack) x y k hfit]
      rfl
  case ldB x =>
    rw [exec_ldB, exec_ldB, ← finish_advance_setStack, ← writeRange_setStack]
    rfl
  case storeRegs x =>
    rw [exec_storeRegs, exec_storeRegs, ← finish_advance_setStack, ← writeRange_setStack]
    rfl
  case loadRegs x =>
    have hread := readRange_setStack n stack (effAddr s 0) (rangeLength x) s
    rw [exec_loadRegs, exec_loadRegs, ← finish_advance_setStack]
    show finish _ (((readRange (effAddr s 0) (rangeLength x) (s.setStack n stack)).map _).map advance) = _
    rw [hread]
    cases readRange (effAddr s 0) (rangeLength x) s with
    | error r => rfl
    | ok bs => exact congrArg (fun t => Host.Outcome.next (advance t)) (setRegisters_setStack n stack 0 bs s)
  all_goals rfl

end

/-- Replacing unoccupied slots. -/
theorem sameButStale_setStack {s : State} {stack : Vector Word 16}
    (h : ∀ k : Fin 16, k.val < s.sp.val → s.stack[k.val] = stack[k.val]) :
    SameButStale s (s.setStack s.sp stack) := ⟨h, rfl⟩

theorem SameButStale.exists_stack {s u : State} (h : SameButStale s u) :
    ∃ stack, (∀ k : Fin 16, k.val < s.sp.val → s.stack[k.val] = stack[k.val]) ∧ u = s.setStack s.sp stack := by
  obtain ⟨hslots, hu⟩ := h
  exact ⟨u.stack, hslots, hu.symm⟩

theorem SameButStale.refl (s : State) : SameButStale s s := ⟨fun _ _ => rfl, rfl⟩

/-- An operation that leaves the stack alone and does the same whatever the stack is keeps two states the same but for
stale slots. -/
theorem sameButStale_of_stack_unchanged {s t : State} {stack : Vector Word 16}
    (hslots : ∀ k : Fin 16, k.val < s.sp.val → s.stack[k.val] = stack[k.val]) (h : Unchanged s t .stack) :
    SameButStale t (t.setStack s.sp stack) := by
  obtain ⟨hsp, hstack⟩ := h
  rw [← hsp] at hslots ⊢
  rw [← hstack] at hslots
  exact sameButStale_setStack hslots

section
variable {s : State} {stack : Vector Word 16}
variable (hslots : ∀ k : Fin 16, k.val < s.sp.val → s.stack[k.val] = stack[k.val])
include hslots

/-- A return pops an occupied slot, which is the same in both. -/
theorem exec_ret_stale : ∃ t v, exec .ret s = .next t ∧ exec .ret (s.setStack s.sp stack) = .next v ∧
    SameButStale t v := by
  by_cases hsp : s.sp.val = 0
  · exact ⟨_, _, exec_ret_halt s hsp, exec_ret_halt (s.setStack s.sp stack) hsp, hslots, rfl⟩
  · have hpos : 0 < s.sp.val := Nat.pos_of_ne_zero hsp
    have htop := hslots ⟨s.sp.val - 1, by have := s.sp.isLt; omega⟩ (Nat.sub_lt hpos Nat.one_pos)
    refine ⟨_, _, exec_ret_ok s hpos, exec_ret_ok (s.setStack s.sp stack) hpos, fun k hk => ?_, ?_⟩
    · exact hslots k (Nat.lt_of_lt_of_le hk (Nat.sub_le _ _))
    · simp only at htop
      simp only [htop]
      rfl

/-- A call fills the first unoccupied slot with the same address in both. -/
theorem exec_call_stale (nnn : Addr) : ∃ t v, exec (.call nnn) s = .next t ∧
    exec (.call nnn) (s.setStack s.sp stack) = .next v ∧ SameButStale t v := by
  by_cases hsp : s.sp.val = 16
  · exact ⟨_, _, exec_call_halt s nnn hsp, exec_call_halt (s.setStack s.sp stack) nnn hsp, hslots, rfl⟩
  · have hlt : s.sp.val < 16 := by have := s.sp.isLt; omega
    refine ⟨_, _, exec_call_ok s nnn hlt, exec_call_ok (s.setStack s.sp stack) nnn hlt, fun k hk => ?_, rfl⟩
    have hk' : k.val < s.sp.val + 1 := hk
    show (s.stack.set s.sp.val s.nextPc hlt)[k.val] = (stack.set s.sp.val s.nextPc hlt)[k.val]
    by_cases e : s.sp.val = k.val
    · simp only [← e, Vector.getElem_set_self]
    · rw [Vector.getElem_set_ne hlt k.isLt e, Vector.getElem_set_ne hlt k.isLt e]
      exact hslots k (by omega)

theorem exec_stale (i : Instr) : ∃ t v, exec i s = .next t ∧ exec i (s.setStack s.sp stack) = .next v ∧
    SameButStale t v := by
  by_cases hi : .stack ∈ writtenParts i
  · obtain rfl | ⟨nnn, rfl⟩ := stack_mem_writtenParts hi
    · exact exec_ret_stale hslots
    · exact exec_call_stale hslots nnn
  · obtain ⟨t, ht⟩ := exec_next i s
    refine ⟨t, t.setStack s.sp stack, ht, ?_, sameButStale_of_stack_unchanged hslots ?_⟩
    · rw [exec_setStack s.sp stack hi, ht]
      rfl
    · exact exec_frame ht .stack (List.not_mem_cons_of_ne_of_not_mem (by decide) hi)

/-- The fetch reads no stack, so both states run the same instruction. -/
theorem stepEvent_stale (d : Option Byte) : ∃ t v, stepEvent d s = .next t ∧
    stepEvent d (s.setStack s.sp stack) = .next v ∧ SameButStale t v := by
  cases hrun : s.run with
  | halted r =>
    exact ⟨_, _, stepEvent_halted hrun, stepEvent_halted (s := s.setStack s.sp stack) hrun, hslots, rfl⟩
  | ready =>
    by_cases hpc : s.pc.toNat + 1 < 4096
    · rw [stepEvent_fetched hrun hpc, stepEvent_fetched (s := s.setStack s.sp stack) hrun hpc]
      exact exec_stale (s := beginStep d s) hslots _
    · rw [stepEvent_unfetched hrun hpc, stepEvent_unfetched (s := s.setStack s.sp stack) hrun hpc]
      exact ⟨_, _, rfl, rfl, hslots, rfl⟩

/-- A LOAD reads no stack either; where it is refused for one state it is for the other. -/
theorem loadEvent_stale (bytes : List Byte) :
    (∃ t v, loadEvent bytes s = .next t ∧ loadEvent bytes (s.setStack s.sp stack) = .next v ∧ SameButStale t v) ∨
      ∃ r, loadEvent bytes s = .refused r ∧ loadEvent bytes (s.setStack s.sp stack) = .refused r := by
  cases hopen : s.loadOpen
  · exact .inr ⟨_, loadEvent_refused hopen, loadEvent_refused (s := s.setStack s.sp stack) hopen⟩
  refine .inl ?_
  by_cases hfit : 512 + bytes.length ≤ 4096
  · obtain ⟨m, hwrite, -⟩ := writeRange_ok (s := { s with report := none, loadOpen := false }) (.inr hfit)
    have hwrite' := writeRange_setStack s.sp stack 512 bytes { s with report := none, loadOpen := false }
    rw [hwrite] at hwrite'
    exact ⟨_, _, loadEvent_of_written hopen hfit hwrite,
      loadEvent_of_written (s := s.setStack s.sp stack) hopen hfit hwrite', hslots, rfl⟩
  · have hlarge := Nat.not_le.1 hfit
    exact ⟨_, _, loadEvent_tooLarge hopen hlarge, loadEvent_tooLarge (s := s.setStack s.sp stack) hopen hlarge,
      hslots, rfl⟩

theorem happen_stale (e : Event) :
    (∃ t v, happen e s = .next t ∧ happen e (s.setStack s.sp stack) = .next v ∧ SameButStale t v) ∨
      ∃ r, happen e s = .refused r ∧ happen e (s.setStack s.sp stack) = .refused r := by
  cases e
  case reset => exact .inl ⟨_, _, rfl, rfl, SameButStale.refl _⟩
  case tick | key => exact .inl ⟨_, _, rfl, rfl, hslots, rfl⟩
  case step d => exact .inl (stepEvent_stale hslots d)
  case load bytes => exact loadEvent_stale hslots bytes

end

/-- Settles O26: one state is the other with its stack replaced, the step is the same event in both, and no event reads an
unoccupied slot. -/
theorem staleStackSlotsAreUnobservable : Obligations.StaleStackSlotsAreUnobservable := by
  unfold Obligations.StaleStackSlotsAreUnobservable
  intro s u hsame
  obtain ⟨stack, hslots, rfl⟩ := hsame.exists_stack
  obtain ⟨hagenda, hstep⟩ | ⟨e, rest, hagenda, hstep⟩ := step_cases s
  · rw [hstep, step_of_nil (s := s.setStack s.sp stack) hagenda]
    exact .inl (stepEvent_stale hslots none)
  · rw [hstep, step_of_agenda (s := s.setStack s.sp stack) hagenda]
    exact happen_stale (s := { s with agenda := rest }) hslots e

end Sys2Proof.Machine
end
